-- ==== Sys2Proof/Word.lean ====
section
/-!
DEFINITION. The widths of the block: bytes, 16-bit words, register numbers, the 64 by 32 one-bit framebuffer.
Every value is unsigned (spec 00_scope.md R7).
-/

namespace Sys2Proof

/-- 8 bits: a general register, a timer, a byte of memory (R20, R31, R34). -/
abbrev Byte := BitVec 8

/-- 16 bits: an instruction word, `PC`, `I`, a return address (R70, R23, R28, R29). -/
abbrev Word := BitVec 16

/-- The number of a general register, 0 to 15 (R20). -/
abbrev Reg := Fin 16

/-- `VF`, the register that also holds carry, borrow, shift-out and collision (R26). -/
abbrev VF : Reg := 15

/-- The framebuffer: 32 rows of 64 one-bit pixels; bit `x` of row `y` is the pixel in column `x`, row `y` (R9, R42). -/
abbrev Frame := Vector (BitVec 64) 32

end Sys2Proof
end

