-- ==== Sys2Proof/Machine/Flags.lean ====
section
/-!
DEFINITION. The 8-bit ALU and what it leaves in `VF` (spec 42_alu.md R120): exact sums over naturals, narrowed once.
-/

namespace Sys2Proof.Machine

/-- A flag as the byte 0 or 1 that `VF` receives (R26). -/
def flagByte (b : Bool) : Byte := if b then 1 else 0

/-- `(a + b) mod 256`. -/
def add8 (a b : Byte) : Byte := BitVec.ofNat 8 (a.toNat + b.toNat)

/-- `1 if a + b > 255 else 0`. -/
def carry (a b : Byte) : Byte := flagByte (decide (255 < a.toNat + b.toNat))

/-- `(a - b + 256) mod 256`. -/
def sub8 (a b : Byte) : Byte := BitVec.ofNat 8 (a.toNat + 256 - b.toNat)

/-- `1 if a >= b else 0`. -/
def noborrow (a b : Byte) : Byte := flagByte (decide (b.toNat ≤ a.toNat))

/-- `a >> 1`; bit 7 becomes 0. -/
def shr8 (a : Byte) : Byte := a >>> 1

/-- `a & 1`, the bit shifted out at the bottom. -/
def outLo (a : Byte) : Byte := flagByte (a.getLsbD 0)

/-- `(a << 1) mod 256`; bit 0 becomes 0. -/
def shl8 (a : Byte) : Byte := a <<< 1

/-- `(a >> 7) & 1`, the bit shifted out at the top. -/
def outHi (a : Byte) : Byte := flagByte (a.getLsbD 7)

end Sys2Proof.Machine
end

