-- ==== Sys2Proof/Config.lean ====
section
/-!
DEFINITION. What one instance of the block fixes (spec 00_scope.md R5), and the one free value the model needs.
The fixed parameters (4096 bytes of memory, entry 0x200, 16 registers, 64 by 32 pixels, 16 keys) stand in the types and rules.
-/

namespace Sys2Proof

/-- The two parameters an instance chooses (R5, D2, D4). -/
structure Config where
  /-- `STACK_CAPACITY`: entries of the call stack, 12 to 16 (R29). -/
  stackCapacity : Nat
  /-- `FONT_BASE`: address of glyph 0; the 80 font bytes end at or below 0x200 (R35). -/
  fontBase : Nat
  deriving DecidableEq, Repr

/-- The default instance: `STACK_CAPACITY` = 16, `FONT_BASE` = 0x050 (R5). -/
def Config.default : Config := { stackCapacity := 16, fontBase := 0x050 }

/-- DESIGN CHOICE (log 12): whether a load that shares its clock with a start comes before it. The spec orders the other
strobes of a clock (R44) and is silent on this one, so the value is free. -/
opaque Config.loadBeforeStart : Bool

end Sys2Proof
end

