-- ==== Sys2Proof/WellFormed.lean ====
section
/-!
DEFINITION. The checks on syntax and parameters that a type does not already make.
Register numbers, bytes and 12-bit addresses are bounded by their types.
-/

namespace Sys2Proof

/-- The row count of DXYN is a nibble, 0 to 15 (R74); every other field is bounded by its type. -/
def Instr.wellFormed : Instr → Bool
  | .drw _ _ n => decide (n < 16)
  | .cls | .ret | .jp _ | .call _ | .seImm _ _ | .sneImm _ _ | .seReg _ _ | .ldImm _ _ | .addImm _ _ | .ldReg _ _
  | .orReg _ _ | .andReg _ _ | .xorReg _ _ | .addReg _ _ | .subReg _ _ | .shr _ _ | .subn _ _ | .shl _ _
  | .sneReg _ _ | .ldI _ | .jpV0 _ | .rnd _ _ | .skp _ | .sknp _ | .ldVxDt _ | .ldVxK _ | .ldDtVx _ | .ldStVx _
  | .addI _ | .ldF _ | .ldB _ | .storeRegs _ | .loadRegs _ => true

/-- An instance the spec allows: capacity 12 to 16 (R5, R29), font ending at or below 0x200 (R5). -/
def Config.wellFormed (c : Config) : Bool :=
  decide (12 ≤ c.stackCapacity) && decide (c.stackCapacity ≤ 16) && decide (c.fontBase + 80 ≤ 0x200)

/-- A ROM that fits: at most 4096 - 0x200 = 3584 bytes (R205); its bytes are not checked in any way. -/
def romWellFormed (rom : List Byte) : Bool := decide (rom.length ≤ 3584)

end Sys2Proof
end

