-- ==== Sys2Proof/Decode.lean ====
section
/-!
DEFINITION. The decoder (spec 30_encoding.md R71 to R78, 40_cycle.md R93): from bytes to one instruction or the named
rejection `unknown`; and the encoder, written from the same table.
-/

namespace Sys2Proof

/-- Why bytes are no instruction. -/
inductive Reject where
  /-- The word matches no row of R76: the spec's variant `Unknown` (R78). -/
  | unknown (w : Word)
  /-- Fewer than two bytes were given; an instruction is exactly two (R70). -/
  | truncated
  deriving DecidableEq, Repr

/-! ### Fields (R71) -/

/-- `op`, bits 15 to 12: the opcode family. -/
def fieldOp (w : Word) : BitVec 4 := w.extractLsb' 12 4

/-- `x`, bits 11 to 8. -/
def fieldX (w : Word) : Reg := (w.extractLsb' 8 4).toFin

/-- `y`, bits 7 to 4. -/
def fieldY (w : Word) : Reg := (w.extractLsb' 4 4).toFin

/-- `n`, bits 3 to 0. -/
def fieldN (w : Word) : Nat := (w.extractLsb' 0 4).toNat

/-- `nn`, bits 7 to 0. -/
def fieldNN (w : Word) : Byte := w.extractLsb' 0 8

/-- `nnn`, bits 11 to 0. -/
def fieldNNN (w : Word) : BitVec 12 := w.extractLsb' 0 12

/-! ### The opcode table (R76) -/

/-- One row of R76: a word `w` is this row's instruction exactly when `w & mask = code`. -/
structure OpcodeRow where
  code  : Word
  mask  : Word
  build : Word → Instr

/-- Families 0 to 7. -/
def opcodeRowsLow : List OpcodeRow :=
  [ ⟨0x00E0, 0xFFFF, fun _ => .cls⟩,
    ⟨0x00EE, 0xFFFF, fun _ => .ret⟩,
    ⟨0x1000, 0xF000, fun w => .jp (fieldNNN w)⟩,
    ⟨0x2000, 0xF000, fun w => .call (fieldNNN w)⟩,
    ⟨0x3000, 0xF000, fun w => .seImm (fieldX w) (fieldNN w)⟩,
    ⟨0x4000, 0xF000, fun w => .sneImm (fieldX w) (fieldNN w)⟩,
    ⟨0x5000, 0xF00F, fun w => .seReg (fieldX w) (fieldY w)⟩,
    ⟨0x6000, 0xF000, fun w => .ldImm (fieldX w) (fieldNN w)⟩,
    ⟨0x7000, 0xF000, fun w => .addImm (fieldX w) (fieldNN w)⟩ ]

/-- Families 8 and 9. -/
def opcodeRowsAlu : List OpcodeRow :=
  [ ⟨0x8000, 0xF00F, fun w => .ldReg (fieldX w) (fieldY w)⟩,
    ⟨0x8001, 0xF00F, fun w => .orReg (fieldX w) (fieldY w)⟩,
    ⟨0x8002, 0xF00F, fun w => .andReg (fieldX w) (fieldY w)⟩,
    ⟨0x8003, 0xF00F, fun w => .xorReg (fieldX w) (fieldY w)⟩,
    ⟨0x8004, 0xF00F, fun w => .addReg (fieldX w) (fieldY w)⟩,
    ⟨0x8005, 0xF00F, fun w => .subReg (fieldX w) (fieldY w)⟩,
    ⟨0x8006, 0xF00F, fun w => .shr (fieldX w) (fieldY w)⟩,
    ⟨0x8007, 0xF00F, fun w => .subn (fieldX w) (fieldY w)⟩,
    ⟨0x800E, 0xF00F, fun w => .shl (fieldX w) (fieldY w)⟩,
    ⟨0x9000, 0xF00F, fun w => .sneReg (fieldX w) (fieldY w)⟩ ]

/-- Families A to F. -/
def opcodeRowsHigh : List OpcodeRow :=
  [ ⟨0xA000, 0xF000, fun w => .ldI (fieldNNN w)⟩,
    ⟨0xB000, 0xF000, fun w => .jpV0 (fieldNNN w)⟩,
    ⟨0xC000, 0xF000, fun w => .rnd (fieldX w) (fieldNN w)⟩,
    ⟨0xD000, 0xF000, fun w => .drw (fieldX w) (fieldY w) (fieldN w)⟩,
    ⟨0xE09E, 0xF0FF, fun w => .skp (fieldX w)⟩,
    ⟨0xE0A1, 0xF0FF, fun w => .sknp (fieldX w)⟩,
    ⟨0xF007, 0xF0FF, fun w => .ldVxDt (fieldX w)⟩,
    ⟨0xF00A, 0xF0FF, fun w => .ldVxK (fieldX w)⟩,
    ⟨0xF015, 0xF0FF, fun w => .ldDtVx (fieldX w)⟩,
    ⟨0xF018, 0xF0FF, fun w => .ldStVx (fieldX w)⟩,
    ⟨0xF01E, 0xF0FF, fun w => .addI (fieldX w)⟩,
    ⟨0xF029, 0xF0FF, fun w => .ldF (fieldX w)⟩,
    ⟨0xF033, 0xF0FF, fun w => .ldB (fieldX w)⟩,
    ⟨0xF055, 0xF0FF, fun w => .storeRegs (fieldX w)⟩,
    ⟨0xF065, 0xF0FF, fun w => .loadRegs (fieldX w)⟩ ]

/-- The 34 rows of R76, in its order. -/
def opcodeTable : List OpcodeRow := opcodeRowsLow ++ opcodeRowsAlu ++ opcodeRowsHigh

/-- `w` is an instruction of row `r` (R76). -/
def OpcodeRow.hits (r : OpcodeRow) (w : Word) : Bool := decide (w &&& r.mask = r.code)

/-! ### The decoder -/

/-- `decode(opcode)` of R93: a function of the word alone. -/
def decodeWord (w : Word) : Except Reject Instr :=
  match opcodeTable.find? (fun r => r.hits w) with
  | some r => .ok (r.build w)
  | none => .error (.unknown w)

/-- The instruction word of two bytes, the first one on top (R50). -/
def wordOfBytes (hi lo : Byte) : Word := hi.setWidth 16 <<< 8 ||| lo.setWidth 16

/-- Decode the first two bytes of a list and hand back the rest. -/
def decode : List Byte → Except Reject (Instr × List Byte)
  | hi :: lo :: rest =>
    match decodeWord (wordOfBytes hi lo) with
    | .ok i => .ok (i, rest)
    | .error e => .error e
  | _ => .error .truncated

/-! ### The encoder (formats of R72) -/

/-- The 4-bit field that holds a register number. -/
def regBits (r : Reg) : BitVec 4 := BitVec.ofFin r

/-- Formats Z, XY, XYN and X: four nibbles, the first on top. -/
def packNibbles (a b c d : BitVec 4) : Word :=
  a.setWidth 16 <<< 12 ||| b.setWidth 16 <<< 8 ||| c.setWidth 16 <<< 4 ||| d.setWidth 16

/-- Format XI: `op`, `x`, `nn`. -/
def packXI (op : BitVec 4) (x : Reg) (nn : Byte) : Word :=
  op.setWidth 16 <<< 12 ||| (regBits x).setWidth 16 <<< 8 ||| nn.setWidth 16

/-- Format A: `op`, `nnn`. -/
def packA (op : BitVec 4) (nnn : BitVec 12) : Word := op.setWidth 16 <<< 12 ||| nnn.setWidth 16

/-- The word of an instruction. -/
def encodeWord : Instr → Word
  | .cls => packNibbles 0x0 0x0 0xE 0x0
  | .ret => packNibbles 0x0 0x0 0xE 0xE
  | .jp nnn => packA 0x1 nnn
  | .call nnn => packA 0x2 nnn
  | .seImm x nn => packXI 0x3 x nn
  | .sneImm x nn => packXI 0x4 x nn
  | .seReg x y => packNibbles 0x5 (regBits x) (regBits y) 0x0
  | .ldImm x nn => packXI 0x6 x nn
  | .addImm x nn => packXI 0x7 x nn
  | .ldReg x y => packNibbles 0x8 (regBits x) (regBits y) 0x0
  | .orReg x y => packNibbles 0x8 (regBits x) (regBits y) 0x1
  | .andReg x y => packNibbles 0x8 (regBits x) (regBits y) 0x2
  | .xorReg x y => packNibbles 0x8 (regBits x) (regBits y) 0x3
  | .addReg x y => packNibbles 0x8 (regBits x) (regBits y) 0x4
  | .subReg x y => packNibbles 0x8 (regBits x) (regBits y) 0x5
  | .shr x y => packNibbles 0x8 (regBits x) (regBits y) 0x6
  | .subn x y => packNibbles 0x8 (regBits x) (regBits y) 0x7
  | .shl x y => packNibbles 0x8 (regBits x) (regBits y) 0xE
  | .sneReg x y => packNibbles 0x9 (regBits x) (regBits y) 0x0
  | .ldI nnn => packA 0xA nnn
  | .jpV0 nnn => packA 0xB nnn
  | .rnd x nn => packXI 0xC x nn
  | .drw x y n => packNibbles 0xD (regBits x) (regBits y) (BitVec.ofNat 4 n)
  | .skp x => packNibbles 0xE (regBits x) 0x9 0xE
  | .sknp x => packNibbles 0xE (regBits x) 0xA 0x1
  | .ldVxDt x => packNibbles 0xF (regBits x) 0x0 0x7
  | .ldVxK x => packNibbles 0xF (regBits x) 0x0 0xA
  | .ldDtVx x => packNibbles 0xF (regBits x) 0x1 0x5
  | .ldStVx x => packNibbles 0xF (regBits x) 0x1 0x8
  | .addI x => packNibbles 0xF (regBits x) 0x1 0xE
  | .ldF x => packNibbles 0xF (regBits x) 0x2 0x9
  | .ldB x => packNibbles 0xF (regBits x) 0x3 0x3
  | .storeRegs x => packNibbles 0xF (regBits x) 0x5 0x5
  | .loadRegs x => packNibbles 0xF (regBits x) 0x6 0x5

/-- The high byte of a word, stored at the lower address (R50, R51). -/
def highByte (w : Word) : Byte := w.extractLsb' 8 8

/-- The low byte of a word, stored at the next address (R50). -/
def lowByte (w : Word) : Byte := w.extractLsb' 0 8

/-- The two bytes of an instruction in the order memory holds them (R50, R51). -/
def encode (i : Instr) : List Byte := [highByte (encodeWord i), lowByte (encodeWord i)]

/-! ### The host's numbering of an instruction's bits -/

/-- The single word of an instruction given as `w`, of whose bits the lowest `nbits` count. -/
def tableWord (nbits w : Nat) : Word := BitVec.ofNat 16 (w % 2 ^ nbits)

/-- The instruction the decoder reads from a word numbered as spec/opcode_table.json numbers it. -/
def decodeTableWord (nbits w : Nat) : Option Instr :=
  match decode [highByte (tableWord nbits w), lowByte (tableWord nbits w)] with
  | .ok (i, _) => some i
  | .error _ => none

end Sys2Proof
end

