-- ==== Sys2Proof/Machine/State.lean ====
section
/-!
DEFINITION. Everything the spec gives the machine (10_state.md R20 to R43), as plain data, and the state after reset
(R46). Three fields are the model's own and are marked so: `cfg`, `events`, `trace`.
-/

namespace Sys2Proof.Machine

/-- `run_state` (R36). -/
inductive RunState where
  | stopped
  | running
  | paused
  deriving DecidableEq, Repr

/-- The kind of a fault with its payload (R170). -/
inductive FaultCause where
  /-- Kind 1: the word at `PC` matches no row of the opcode table (R171). -/
  | invalidOpcode
  /-- Kind 2: `address` is the smallest address of 4096 or more the cycle would have touched (R172); 17 bits (R39). -/
  | addressOutOfRange (address : BitVec 17)
  /-- Kind 3: a call with every stack entry in use (R173). -/
  | stackOverflow
  /-- Kind 4: a return with no stack entry in use (R174). -/
  | stackUnderflow
  deriving DecidableEq, Repr

/-- The fault record (R39): the cause, and the `pc` and `opcode` of the faulting cycle. -/
structure FaultRecord where
  cause  : FaultCause
  pc     : Word
  opcode : Word
  deriving DecidableEq, Repr

/-- The events by which the machine advances, each atomic (R10): the engine cycle (R90), the timer tick (R185), and the
host events of R45. -/
inductive Event where
  /-- A `cycle_en` strobe. -/
  | cycle
  /-- A `tick60` strobe. -/
  | tick
  | reset
  /-- A `load_we` strobe with `load_addr` and `load_data`. -/
  | load (addr : BitVec 12) (data : Byte)
  | start
  | stop
  | pause
  | resume
  /-- The keypad lines take new levels. -/
  | keyChange (lines : BitVec 16)
  /-- The random byte takes a new value. -/
  | rndChange (value : Byte)
  deriving DecidableEq, Repr

/-- Memory: the bytes that differ from their reset value, addresses strictly rising (log 6). -/
abbrev Memory := List Host.Cell

structure State where
  /-- `V0..VF` (R20). -/
  v        : Vector Byte 16
  /-- `PC` (R23). -/
  pc       : Word
  /-- `I` (R28). -/
  index    : Word
  /-- `SP`, the number of stack entries in use (R29). -/
  sp       : Nat
  /-- `stack[0 .. STACK_CAPACITY-1]` (R29). -/
  stack    : List Word
  /-- `DT` (R31). -/
  dt       : Byte
  /-- `ST` (R32). -/
  st       : Byte
  /-- `mem[0 .. 4095]` (R34). -/
  mem      : Memory
  /-- `fb` (R42). -/
  fb       : Frame
  /-- `dirty` (R27). -/
  dirty    : Bool
  /-- `run_state` (R36). -/
  runState : RunState
  /-- `stop_req` (R37). -/
  stopReq  : Bool
  /-- `run_done` (R38). -/
  runDone  : Bool
  /-- `fault` (R39); `none` is kind 0. -/
  fault    : Option FaultRecord
  /-- `key[15:0]`, an input: bit `k` is 1 when key `k` is pressed (R43). -/
  key      : BitVec 16
  /-- `rnd[7:0]`, an input (R43). -/
  rnd      : Byte
  /-- The model's own (log 1): the constants of the instance (R5). No event changes them. -/
  cfg      : Config
  /-- The model's own (log 4): the events still to be delivered, oldest first, one a step; when there is none, a step
  is an engine cycle. -/
  events   : List Event
  /-- The model's own (log 10): the output trace, the snapshots emitted so far, oldest first (R9, R96). -/
  trace    : List Frame
  deriving DecidableEq, Repr

/-- Why a step could stop with a fault of the host interface. There is no such reason and so no constructor: every fault
of the spec is entered by the machine (R179), which goes on to a next state (log 5). -/
inductive Fault where
  deriving DecidableEq, Repr

/-- Why a step could be refused. -/
inductive Refusal where
  /-- Raised by an arm of `exec` whose instruction has no meaning yet (safe); no arm does so. -/
  | notModelled (mnemonic : String)
  deriving DecidableEq, Repr

/-- The reset values of R46 for an instance. The inputs `key` and `rnd` are not reset by the block; the zeros they hold
here are a DESIGN CHOICE (log 3), as is the empty list of coming events (log 4). -/
def State.resetOf (cfg : Config) : State where
  v        := Vector.replicate 16 0
  pc       := 0x200
  index    := 0
  sp       := 0
  stack    := List.replicate cfg.stackCapacity 0
  dt       := 0
  st       := 0
  mem      := []
  fb       := Vector.replicate 32 0
  dirty    := false
  runState := .stopped
  stopReq  := false
  runDone  := false
  fault    := none
  key      := 0
  rnd      := 0
  cfg      := cfg
  events   := []
  trace    := []

/-- The machine right after reset, in the default instance (R46, R200). -/
def State.reset : State := State.resetOf Config.default

end Sys2Proof.Machine
end

