-- ==== Sys2Proof/Machine/Ops.lean ====
section
/-!
DEFINITION. The named operations over the state: registers, memory, program counter, stack, framebuffer, and taking a
fault. The meanings of the instructions are built from these.
-/

namespace Sys2Proof.Machine

/-! ### Memory (20_memory.md) -/

/-- The glyphs 0 to 7, five rows each, top row first (R35). -/
def fontLow : List Byte :=
  [0xF0, 0x90, 0x90, 0x90, 0xF0] ++ [0x20, 0x60, 0x20, 0x20, 0x70] ++
  [0xF0, 0x10, 0xF0, 0x80, 0xF0] ++ [0xF0, 0x10, 0xF0, 0x10, 0xF0] ++
  [0x90, 0x90, 0xF0, 0x10, 0x10] ++ [0xF0, 0x80, 0xF0, 0x10, 0xF0] ++
  [0xF0, 0x80, 0xF0, 0x90, 0xF0] ++ [0xF0, 0x10, 0x20, 0x40, 0x40]

/-- The glyphs 8 to F (R35). -/
def fontHigh : List Byte :=
  [0xF0, 0x90, 0xF0, 0x90, 0xF0] ++ [0xF0, 0x90, 0xF0, 0x10, 0xF0] ++
  [0xF0, 0x90, 0xF0, 0x90, 0x90] ++ [0xE0, 0x90, 0xE0, 0x90, 0xE0] ++
  [0xF0, 0x80, 0x80, 0x80, 0xF0] ++ [0xE0, 0x90, 0x90, 0x90, 0xE0] ++
  [0xF0, 0x80, 0xF0, 0x80, 0xF0] ++ [0xF0, 0x80, 0xF0, 0x80, 0x80]

/-- The 80 font bytes (R35). -/
def fontBytes : List Byte := fontLow ++ fontHigh

/-- What a byte of memory holds after reset: the font at `FONT_BASE`, zero elsewhere (R46). An address that the memory
list does not name reads as this. -/
def resetByte (fontBase a : Nat) : Byte :=
  if fontBase ≤ a ∧ a < fontBase + 80 then fontBytes.getD (a - fontBase) 0 else 0

/-- `mem[a]`. -/
def Memory.read (fontBase : Nat) : Memory → Nat → Byte
  | [], a => resetByte fontBase a
  | (k, b) :: rest, a => if a = k then b else Memory.read fontBase rest a

/-- Set one byte in a canonical list: an entry that would hold the reset byte is left out. -/
def Memory.insert (fontBase : Nat) : Memory → Nat → Byte → Memory
  | [], a, b => if b = resetByte fontBase a then [] else [(a, b)]
  | (k, c) :: rest, a, b =>
    if a < k then (if b = resetByte fontBase a then (k, c) :: rest else (a, b) :: (k, c) :: rest)
    else if a = k then (if b = resetByte fontBase a then rest else (a, b) :: rest)
    else (k, c) :: Memory.insert fontBase rest a b

/-- `mem[a] <- b`. The rules write only valid addresses, `a < 4096` (R9, R54); at any other this does nothing. -/
def Memory.write (fontBase : Nat) (m : Memory) (a : Nat) (b : Byte) : Memory :=
  if a < 4096 then Memory.insert fontBase m a b else m

/-- Every address of the list is above `lo` and below 4096, they rise, and no entry holds its reset byte. -/
def Memory.wfAbove (fontBase : Nat) : Nat → Memory → Bool
  | _, [] => true
  | lo, (k, b) :: rest =>
    decide (lo ≤ k) && decide (k < 4096) && decide (b ≠ resetByte fontBase k) && Memory.wfAbove fontBase (k + 1) rest

/-- The canonical form: addresses strictly rising and below 4096, no entry equal to what an unlisted address reads. -/
def Memory.wf (fontBase : Nat) (m : Memory) : Bool := Memory.wfAbove fontBase 0 m

/-- `MemRead(a, 1)` (R9). -/
def State.byteAt (s : State) (a : Nat) : Byte := Memory.read s.cfg.fontBase s.mem a

/-- `MemWrite(a, 1, b)` (R9). -/
def State.writeByte (s : State) (a : Nat) (b : Byte) : State :=
  { s with mem := Memory.write s.cfg.fontBase s.mem a b }

/-- Byte writes at ascending addresses from `a`, the first item at the lowest (R51, R60). -/
def State.storeBytes (s : State) (a : Nat) : List Byte → State
  | [] => s
  | b :: rest => (s.writeByte a b).storeBytes (a + 1) rest

/-- `{ mem[PC], mem[PC+1] }`, the word of the instruction at `PC`, high byte first (R50). -/
def State.fetchedWord (s : State) : Word := wordOfBytes (s.byteAt s.pc.toNat) (s.byteAt (s.pc.toNat + 1))

/-! ### General registers (R20) -/

/-- `V[r]`. -/
def State.reg (s : State) (r : Reg) : Byte := s.v[r]

/-- `V[r] <- b`. -/
def State.setReg (s : State) (r : Reg) (b : Byte) : State := { s with v := s.v.set r.val b r.isLt }

/-- `V[0], .., V[count-1]` from ascending addresses at `base`. -/
def State.loadRegs (s : State) (base : Nat) : Nat → State
  | 0 => s
  | k + 1 => (s.loadRegs base k).setReg (Fin.ofNat 16 k) (s.byteAt (base + k))

/-- The values of `V[0], .., V[count-1]`. -/
def State.firstRegs (s : State) (count : Nat) : List Byte := s.v.toList.take count

/-! ### `PC`, `I`, timers, framebuffer -/

/-- `PC <- a`: the address of the next fetch. -/
def State.setPc (s : State) (a : Word) : State := { s with pc := a }

/-- `PC <- PC + 2`, modulo 65536 (R24). -/
def State.advance (s : State) : State := s.setPc (s.pc + 2)

/-- `PC <- PC + (4 if taken else 2)` (R24, R108). -/
def State.skipIf (s : State) (taken : Bool) : State := s.setPc (if taken then s.pc + 4 else s.pc + 2)

/-- `I <- a`. -/
def State.setIndex (s : State) (a : Word) : State := { s with index := a }

/-- `DT <- b`. -/
def State.setDt (s : State) (b : Byte) : State := { s with dt := b }

/-- `ST <- b`. -/
def State.setSt (s : State) (b : Byte) : State := { s with st := b }

/-- New framebuffer contents; `dirty <- 1` (R27). -/
def State.setFrame (s : State) (f : Frame) : State := { s with fb := f, dirty := true }

/-! ### The call stack (R30) -/

/-- `stack[SP] <- a; SP <- SP + 1`. -/
def State.push (s : State) (a : Word) : State := { s with stack := s.stack.set s.sp a, sp := s.sp + 1 }

/-- `SP <- SP - 1`; the popped entry keeps its bits. -/
def State.pop (s : State) : State := { s with sp := s.sp - 1 }

/-- `stack[SP - 1]`, the entry a pop gives. -/
def State.topOfStack (s : State) : Word := s.stack.getD (s.sp - 1) 0

/-! ### Taking a fault (60_exceptions.md R179) -/

/-- The end of a run: `run_state <- Stopped; run_done <- 1` (R38). -/
def State.endRun (s : State) : State := { s with runState := .stopped, runDone := true }

/-- `raise F(info)`: latch the record with `pc = PC` and the given opcode, and end the run; everything else keeps its
value (R179). There is no handler and nothing returns from a fault: only reset goes on (R182). -/
def State.raise (s : State) (cause : FaultCause) (opcode : Word) : State :=
  { s.endRun with fault := some { cause := cause, pc := s.pc, opcode := opcode } }

/-- A fault of an instruction: the recorded opcode is the word at `PC` (R179), which no instruction has changed before it
raises (R180). DEDUCED (log 7): `exec` is not given the word, so it is read again. -/
def State.raiseAt (s : State) (cause : FaultCause) : State := s.raise cause s.fetchedWord

end Sys2Proof.Machine
end

