-- ==== Sys2Proof/Machine/Operands.lean ====
section
/-!
DEFINITION. Operands: immediates, the key and glyph numbers in a register, effective addresses with their bounds check,
sprite coordinates.
-/

namespace Sys2Proof.Machine

/-- `zext_16(nnn)` (R74). -/
def addressOf (nnn : BitVec 12) : Word := nnn.setWidth 16

/-- `zext_16(b)`. -/
def zext16 (b : Byte) : Word := b.setWidth 16

/-- `VX & 0xF`: the key number of EX9E and EXA1, the digit of FX29 (R73). -/
def lowNibble (b : Byte) : Nat := b.toNat % 16

/-- `key[k]` (R43). -/
def State.keyDown (s : State) (k : Nat) : Bool := s.key.getLsbD k

/-- The lowest-numbered key that is down, if any (R164, `KEY_PRIORITY` of R5). -/
def State.lowestKey (s : State) : Option Nat := (List.range 16).find? (fun k => s.keyDown k)

/-- `FONT_BASE + 5 * d` (R142). -/
def glyphAddress (fontBase d : Nat) : Word := BitVec.ofNat 16 (fontBase + 5 * d)

/-- Some address of `len` bytes from `base` is 4096 or more; the sum is a natural number, with no wrap (R54, R146). -/
def outOfRange (base len : Nat) : Bool := decide (0 < len) && decide (4096 ≤ base + len - 1)

/-- The smallest invalid address of a run that starts at `base` and leaves memory (R54). -/
def firstInvalid (base : Nat) : BitVec 17 := BitVec.ofNat 17 (max base 4096)

/-- The bounds check of R146, made before any read or write: a run of `len` bytes from `I` that leaves memory raises
`AddressOutOfRange(max(I, 4096))`; otherwise the effect. -/
def State.guardRange (s : State) (len : Nat) (effect : State) : State :=
  if outOfRange s.index.toNat len then s.raiseAt (.addressOutOfRange (firstInvalid s.index.toNat)) else effect

/-- Hundreds, tens and ones of a byte (R143). -/
def bcdDigits (b : Byte) : List Byte :=
  [BitVec.ofNat 8 (b.toNat / 100), BitVec.ofNat 8 (b.toNat / 10 % 10), BitVec.ofNat 8 (b.toNat % 10)]

/-! ### The framebuffer (R42, R151, R152) -/

/-- `fb[y][x]`, coordinates taken modulo 64 and 32 (R152). -/
def pixelAt (f : Frame) (x y : Nat) : Bool := (f[y % 32]'(Nat.mod_lt _ (by decide))).getLsbD (x % 64)

/-- `fb[y][x] <- fb[y][x] ^ 1`, coordinates taken modulo 64 and 32. -/
def togglePixel (f : Frame) (x y : Nat) : Frame :=
  f.set (y % 32) (f[y % 32]'(Nat.mod_lt _ (by decide)) ^^^ BitVec.twoPow 64 (x % 64)) (Nat.mod_lt _ (by decide))

/-- One sprite pixel at column `x`, row `y`: a set sprite bit toggles the pixel, and a pixel that was lit is a
collision; a clear sprite bit leaves the pixel alone (R151). -/
def drawPixel (acc : Frame × Bool) (x y : Nat) (bit : Bool) : Frame × Bool :=
  if bit then (togglePixel acc.1 x y, acc.2 || pixelAt acc.1 x y) else acc

/-- One sprite row: 8 columns, leftmost first; bit 7 of the byte is the leftmost (R151). -/
def drawRow (acc : Frame × Bool) (vx y : Nat) (b : Byte) : Frame × Bool :=
  (List.range 8).foldl (fun acc c => drawPixel acc (vx + c) y (b.getLsbD (7 - c))) acc

/-- Sprite rows from the top down: the framebuffer after, and whether there was a collision (R151). -/
def drawRows (acc : Frame × Bool) (vx vy : Nat) : List Byte → Frame × Bool
  | [] => acc
  | b :: rest => drawRows (drawRow acc vx vy b) vx (vy + 1) rest

/-- The `n` sprite bytes from address `base` upward (R51). -/
def State.spriteBytes (s : State) (base n : Nat) : List Byte := (List.range n).map (fun r => s.byteAt (base + r))

end Sys2Proof.Machine
end

