-- ==== Sys2Proof/Machine/Alu.lean ====
section
/-!
DEFINITION. Load-immediate, ALU and random instructions (spec 42_alu.md). Operands are read first, the result is written,
then the flag: with `X` = F the flag wins (R121).
-/

namespace Sys2Proof.Machine

/-- `V[X] <- result; PC <- PC + 2`. -/
def State.writeResult (s : State) (x : Reg) (result : Byte) : State := (s.setReg x result).advance

/-- `V[X] <- result; V[15] <- flag; PC <- PC + 2`, in this order (R121). -/
def State.writeResultFlag (s : State) (x : Reg) (result flag : Byte) : State :=
  ((s.setReg x result).setReg VF flag).advance

/-- 6XNN (R122). -/
def execLdImm (x : Reg) (nn : Byte) (s : State) : Host.Outcome State Fault Refusal :=
  .next (s.writeResult x nn)

/-- 7XNN (R123): no flag. -/
def execAddImm (x : Reg) (nn : Byte) (s : State) : Host.Outcome State Fault Refusal :=
  .next (s.writeResult x (add8 (s.reg x) nn))

/-- 8XY0 (R124). -/
def execLdReg (x y : Reg) (s : State) : Host.Outcome State Fault Refusal :=
  .next (s.writeResult x (s.reg y))

/-- 8XY1 (R125): `VF` is not a flag here. -/
def execOrReg (x y : Reg) (s : State) : Host.Outcome State Fault Refusal :=
  .next (s.writeResult x (s.reg x ||| s.reg y))

/-- 8XY2 (R126). -/
def execAndReg (x y : Reg) (s : State) : Host.Outcome State Fault Refusal :=
  .next (s.writeResult x (s.reg x &&& s.reg y))

/-- 8XY3 (R127). -/
def execXorReg (x y : Reg) (s : State) : Host.Outcome State Fault Refusal :=
  .next (s.writeResult x (s.reg x ^^^ s.reg y))

/-- 8XY4 (R128). -/
def execAddReg (x y : Reg) (s : State) : Host.Outcome State Fault Refusal :=
  .next (s.writeResultFlag x (add8 (s.reg x) (s.reg y)) (carry (s.reg x) (s.reg y)))

/-- 8XY5 (R129): `VX - VY`. -/
def execSubReg (x y : Reg) (s : State) : Host.Outcome State Fault Refusal :=
  .next (s.writeResultFlag x (sub8 (s.reg x) (s.reg y)) (noborrow (s.reg x) (s.reg y)))

/-- 8XY6 (R130): shifts `VX`; the field `y` is not used. -/
def execShr (x _y : Reg) (s : State) : Host.Outcome State Fault Refusal :=
  .next (s.writeResultFlag x (shr8 (s.reg x)) (outLo (s.reg x)))

/-- 8XY7 (R131): `VY - VX`. -/
def execSubn (x y : Reg) (s : State) : Host.Outcome State Fault Refusal :=
  .next (s.writeResultFlag x (sub8 (s.reg y) (s.reg x)) (noborrow (s.reg y) (s.reg x)))

/-- 8XYE (R132): shifts `VX`; the field `y` is not used. -/
def execShl (x _y : Reg) (s : State) : Host.Outcome State Fault Refusal :=
  .next (s.writeResultFlag x (shl8 (s.reg x)) (outHi (s.reg x)))

/-- CXNN (R133): the input `rnd` is sampled once, in this cycle. -/
def execRnd (x : Reg) (nn : Byte) (s : State) : Host.Outcome State Fault Refusal :=
  .next (s.writeResult x (s.rnd &&& nn))

end Sys2Proof.Machine
end

