-- ==== Sys2Proof/Machine/ControlFlow.lean ====
section
/-!
DEFINITION. The control transfer instructions (spec 41_control_flow.md). `s.pc` is the address of the instruction itself.
-/

namespace Sys2Proof.Machine

/-- 00EE (R100): pop into `PC`; `StackUnderflow` when the stack is empty. -/
def execRet (s : State) : Host.Outcome State Fault Refusal :=
  .next (if s.sp = 0 then s.raiseAt .stackUnderflow else s.pop.setPc s.topOfStack)

/-- 1NNN (R101). -/
def execJp (nnn : BitVec 12) (s : State) : Host.Outcome State Fault Refusal :=
  .next (s.setPc (addressOf nnn))

/-- 2NNN (R102): push `PC + 2`, then jump; `StackOverflow` when no entry is free (R30). -/
def execCall (nnn : BitVec 12) (s : State) : Host.Outcome State Fault Refusal :=
  .next (if s.sp < s.cfg.stackCapacity then (s.push (s.pc + 2)).setPc (addressOf nnn) else s.raiseAt .stackOverflow)

/-- 3XNN (R103). -/
def execSeImm (x : Reg) (nn : Byte) (s : State) : Host.Outcome State Fault Refusal :=
  .next (s.skipIf (decide (s.reg x = nn)))

/-- 4XNN (R104). -/
def execSneImm (x : Reg) (nn : Byte) (s : State) : Host.Outcome State Fault Refusal :=
  .next (s.skipIf (decide (s.reg x ≠ nn)))

/-- 5XY0 (R105). -/
def execSeReg (x y : Reg) (s : State) : Host.Outcome State Fault Refusal :=
  .next (s.skipIf (decide (s.reg x = s.reg y)))

/-- 9XY0 (R106): the register values are compared, not the register numbers. -/
def execSneReg (x y : Reg) (s : State) : Host.Outcome State Fault Refusal :=
  .next (s.skipIf (decide (s.reg x ≠ s.reg y)))

/-- BNNN (R107): `NNN + V0`, not reduced to 12 bits. -/
def execJpV0 (nnn : BitVec 12) (s : State) : Host.Outcome State Fault Refusal :=
  .next (s.setPc (addressOf nnn + zext16 (s.reg 0)))

end Sys2Proof.Machine
end

