-- ==== Sys2Proof/Machine/Display.lean ====
section
/-!
DEFINITION. The display instructions (spec 44_display.md), the only writers of the framebuffer and of `dirty`.
-/

namespace Sys2Proof.Machine

/-- All 2048 pixels unlit. -/
def blankFrame : Frame := Vector.replicate 32 0

/-- The framebuffer and the collision of DXYN, from the values before the instruction (R151). -/
def State.drawn (s : State) (x y : Reg) (n : Nat) : Frame × Bool :=
  drawRows (s.fb, false) (s.reg x).toNat (s.reg y).toNat (s.spriteBytes s.index.toNat n)

/-- 00E0 (R150). -/
def execCls (s : State) : Host.Outcome State Fault Refusal :=
  .next (s.setFrame blankFrame).advance

/-- DXYN (R151): coordinates are read before `VF` is written. -/
def execDrw (x y : Reg) (n : Nat) (s : State) : Host.Outcome State Fault Refusal :=
  .next (s.guardRange n (((s.setFrame (s.drawn x y n).1).setReg VF (flagByte (s.drawn x y n).2)).advance))

end Sys2Proof.Machine
end

