-- ==== Sys2Proof/Machine/IndexMemory.lean ====
section
/-!
DEFINITION. Index register and memory instructions (spec 43_index_memory.md). None changes `I` but ANNN, FX1E and FX29.
-/

namespace Sys2Proof.Machine

/-- ANNN (R140). -/
def execLdI (nnn : BitVec 12) (s : State) : Host.Outcome State Fault Refusal :=
  .next (s.setIndex (addressOf nnn)).advance

/-- FX1E (R141): modulo 65536; `VF` unaffected. -/
def execAddI (x : Reg) (s : State) : Host.Outcome State Fault Refusal :=
  .next (s.setIndex (s.index + zext16 (s.reg x))).advance

/-- FX29 (R142): an address only; no memory is read. -/
def execLdF (x : Reg) (s : State) : Host.Outcome State Fault Refusal :=
  .next (s.setIndex (glyphAddress s.cfg.fontBase (lowNibble (s.reg x)))).advance

/-- FX33 (R143). -/
def execLdB (x : Reg) (s : State) : Host.Outcome State Fault Refusal :=
  .next (s.guardRange 3 (s.storeBytes s.index.toNat (bcdDigits (s.reg x))).advance)

/-- FX55 (R144). -/
def execStoreRegs (x : Reg) (s : State) : Host.Outcome State Fault Refusal :=
  .next (s.guardRange (x.val + 1) (s.storeBytes s.index.toNat (s.firstRegs (x.val + 1))).advance)

/-- FX65 (R145). -/
def execLoadRegs (x : Reg) (s : State) : Host.Outcome State Fault Refusal :=
  .next (s.guardRange (x.val + 1) (s.loadRegs s.index.toNat (x.val + 1)).advance)

end Sys2Proof.Machine
end

