-- ==== Sys2Proof/Machine/TimersKeys.lean ====
section
/-!
DEFINITION. Keypad and timer instructions (spec 45_timers_keys.md). The key lines are sampled once, in the cycle that
executes the instruction (R163).
-/

namespace Sys2Proof.Machine

/-- EX9E (R160). -/
def execSkp (x : Reg) (s : State) : Host.Outcome State Fault Refusal :=
  .next (s.skipIf (s.keyDown (lowNibble (s.reg x))))

/-- EXA1 (R161). -/
def execSknp (x : Reg) (s : State) : Host.Outcome State Fault Refusal :=
  .next (s.skipIf (!s.keyDown (lowNibble (s.reg x))))

/-- FX07 (R162). -/
def execLdVxDt (x : Reg) (s : State) : Host.Outcome State Fault Refusal :=
  .next (s.setReg x s.dt).advance

/-- FX0A (R164): with no key down nothing changes, so the next cycle executes it again; otherwise the lowest key. -/
def execLdVxK (x : Reg) (s : State) : Host.Outcome State Fault Refusal :=
  .next (match s.lowestKey with
    | none => s
    | some k => (s.setReg x (BitVec.ofNat 8 k)).advance)

/-- FX15 (R165). -/
def execLdDtVx (x : Reg) (s : State) : Host.Outcome State Fault Refusal :=
  .next (s.setDt (s.reg x)).advance

/-- FX18 (R166). -/
def execLdStVx (x : Reg) (s : State) : Host.Outcome State Fault Refusal :=
  .next (s.setSt (s.reg x)).advance

end Sys2Proof.Machine
end

