-- ==== Sys2Proof/Machine/Events.lean ====
section
/-!
DEFINITION. The timer tick (60_exceptions.md R185), the host events (10_state.md R45), loading and booting
(70_reset_and_hazards.md R203 to R205), and the events of one clock (R44).
-/

namespace Sys2Proof.Machine

/-- One timer towards zero; it stays at zero (R33). -/
def countDown (b : Byte) : Byte := if b = 0 then 0 else b - 1

/-- The tick: both timers, in every run state; nothing else (R185). -/
def State.tick (s : State) : State := { s with dt := countDown s.dt, st := countDown s.st }

/-- Reset: every piece of state takes its reset value (R46, R200). The input lines, the events still to come and the
output trace are not state of the block (R47) and stay. -/
def State.resetEvent (s : State) : State :=
  { State.resetOf s.cfg with key := s.key, rnd := s.rnd, events := s.events, trace := s.trace }

/-- `Stopped` right after reset, from which alone a run can start (R12, R38). -/
def State.fresh (s : State) : Bool := decide (s.runState = .stopped) && !s.runDone

/-- Load one byte: only when fresh and only from 0x200 up; otherwise ignored (R45). -/
def State.loadByte (s : State) (addr : BitVec 12) (data : Byte) : State :=
  if s.fresh ∧ 0x200 ≤ addr.toNat then s.writeByte addr.toNat data else s

/-- Start: only when fresh; otherwise ignored (R45). -/
def State.start (s : State) : State := if s.fresh then { s with runState := .running } else s

/-- Stop request: latched in any state (R37, R45). -/
def State.requestStop (s : State) : State := { s with stopReq := true }

/-- Pause: only when running; otherwise ignored (R45). -/
def State.pause (s : State) : State := if s.runState = .running then { s with runState := .paused } else s

/-- Resume: only when paused; otherwise ignored (R45). -/
def State.resume (s : State) : State := if s.runState = .paused then { s with runState := .running } else s

/-! ### Loading a ROM and booting -/

/-- The load strobes that place bytes at ascending addresses from `a` (R205). -/
def loadEvents (a : Nat) : List Byte → List Event
  | [] => []
  | b :: rest => .load (BitVec.ofNat 12 a) b :: loadEvents (a + 1) rest

/-- Reset, load, start (R203). -/
def bootEvents (rom : List Byte) : List Event := .reset :: (loadEvents 0x200 rom ++ [.start])

/-- The startup refusal of the loader (R175, R205). -/
inductive LoadRefusal where
  /-- The ROM is longer than 3584 bytes: nothing is loaded. -/
  | romTooLarge
  deriving DecidableEq, Repr

/-- `Load(rom)` as one host operation (R205): an oversized ROM is refused and changes nothing; otherwise its bytes go to
0x200 upward. Outside the fresh state loading is ignored (R45; DEDUCED, log 15). -/
def loadRom (rom : List Byte) (s : State) : Except LoadRefusal State :=
  if romWellFormed rom then .ok (if s.fresh then s.storeBytes 0x200 rom else s) else .error .romTooLarge

/-! ### One clock of the input ports -/

/-- The input ports as they are at one rising edge of `clk` (R44). -/
structure Clock where
  rst     : Bool
  cycleEn : Bool
  tick60  : Bool
  start   : Bool
  stop    : Bool
  pause   : Bool
  resume  : Bool
  /-- `load_addr` and `load_data` when `load_we` is high. -/
  load    : Option (BitVec 12 × Byte)
  key     : BitVec 16
  rnd     : Byte
  deriving DecidableEq, Repr

/-- One event when its strobe is high. -/
def strobe (high : Bool) (e : Event) : List Event := if high then [e] else []

/-- The load event of a clock, if its strobe is high. -/
def Clock.loadStrobe (c : Clock) : List Event :=
  match c.load with
  | some (addr, data) => [.load addr data]
  | none => []

/-- The start and the load of a clock. The spec does not order the two; the order is free (log 12). -/
def Clock.startAndLoad (c : Clock) : List Event :=
  match c.loadStrobe with
  | [] => strobe c.start .start
  | l => if Config.loadBeforeStart then l ++ strobe c.start .start else strobe c.start .start ++ l

/-- The events of one clock, in order: reset wins over everything else; then stop, pause, resume, start, the tick, the
cycle (R44, R187). The input lines are those of this clock, also in a clock with reset (DEDUCED, log 14). -/
def Clock.events (c : Clock) : List Event :=
  [.keyChange c.key, .rndChange c.rnd] ++
  if c.rst then [.reset]
  else strobe c.stop .stop ++ strobe c.pause .pause ++ strobe c.resume .resume ++ c.startAndLoad
    ++ strobe c.tick60 .tick ++ strobe c.cycleEn .cycle

end Sys2Proof.Machine
end

