-- ==== Sys2Proof/Machine/Cycle.lean ====
section
/-!
DEFINITION. The engine cycle (40_cycle.md R90), and the delivery of one event (00_scope.md R10).
-/

namespace Sys2Proof.Machine

/-- Both bytes of a fetch are in memory: `PC + 1 < 4096` (R50, R92). -/
def State.canFetch (s : State) : Bool := decide (s.pc.toNat + 1 < 4096)

/-- The address a fetch fault reports: `PC` if it is 4096 or more, else `PC + 1` (R92). -/
def State.fetchFaultAddress (s : State) : BitVec 17 :=
  BitVec.ofNat 17 (if 4096 ≤ s.pc.toNat then s.pc.toNat else s.pc.toNat + 1)

/-- The last phase of a cycle (R96): after a successful execute a dirty framebuffer is emitted and `dirty` cleared.
DEDUCED (log 8): a raise ends the cycle at once (R90), and after a raise the engine is no longer `Running`. -/
def State.emitSnapshot (s : State) : State :=
  if s.runState = .running ∧ s.dirty then { s with trace := s.trace ++ [s.fb], dirty := false } else s

/-- Execute one instruction and emit the snapshot (R95, R96). -/
def executeAndEmit (i : Instr) (s : State) : Host.Outcome State Fault Refusal :=
  match exec i s with
  | .next t => .next t.emitSnapshot
  | .fault f => .fault f
  | .refused r => .refused r

/-- Fetch, decode, execute, emit (R90, from the fetch on). -/
def runInstruction (s : State) : Host.Outcome State Fault Refusal :=
  if s.canFetch then
    match decodeWord s.fetchedWord with
    | .ok i => executeAndEmit i s
    | .error _ => .next (s.raise .invalidOpcode s.fetchedWord)
  else .next (s.raise (.addressOutOfRange s.fetchFaultAddress) 0)

/-- One engine cycle (R90): nothing in `Stopped`; a stop request ends the run before anything is fetched (R91); nothing
more in `Paused` (R97). -/
def cycle (s : State) : Host.Outcome State Fault Refusal :=
  match s.runState with
  | .stopped => .next s
  | .running => if s.stopReq then .next s.endRun else runInstruction s
  | .paused => if s.stopReq then .next s.endRun else .next s

/-- One event (R10, R45). -/
def deliver (e : Event) (s : State) : Host.Outcome State Fault Refusal :=
  match e with
  | .cycle => cycle s
  | .tick => .next s.tick
  | .reset => .next s.resetEvent
  | .load addr data => .next (s.loadByte addr data)
  | .start => .next s.start
  | .stop => .next s.requestStop
  | .pause => .next s.pause
  | .resume => .next s.resume
  | .keyChange lines => .next { s with key := lines }
  | .rndChange value => .next { s with rnd := value }

/-- One step: the oldest coming event, or an engine cycle when none is waiting (log 4). -/
def nextEvent (s : State) : Host.Outcome State Fault Refusal :=
  match s.events with
  | [] => cycle s
  | e :: rest => deliver e { s with events := rest }

/-- The state with one instruction word placed where the next step fetches (log 9): at `PC`, or at 0x200 where nothing
can be fetched at `PC`, with the engine `Running`, no stop requested and no other event waiting. -/
def State.placeWord (s : State) (w : Word) : State :=
  let t := { s with pc := if s.canFetch then s.pc else 0x200, runState := .running, stopReq := false, events := [] }
  t.storeBytes t.pc.toNat [highByte w, lowByte w]

end Sys2Proof.Machine
end

