-- ==== Sys2Proof/Machine/Step.lean ====
section
/-!
DEFINITION. The step of the machine: one event (00_scope.md R10).
-/

namespace Sys2Proof.Machine

/-- One atomic event: the oldest one waiting in `events`, else an engine cycle. -/
def step (s : State) : Host.Outcome State Fault Refusal := nextEvent s

/-- `s` with an instruction, its bits numbered as spec/opcode_table.json numbers them, stored where `step` fetches next. -/
def State.withFetchWord (s : State) (nbits w : Nat) : State := s.placeWord (tableWord nbits w)

end Sys2Proof.Machine
end

