-- ==== Sys2Proof/Machine/Ports.lean ====
section
/-!
DEFINITION. The output ports of the block (10_state.md R44), as functions of the state.
-/

namespace Sys2Proof.Machine

/-- The encoding of `run_state` on its port; 3 is never driven (R36). -/
def RunState.code : RunState → BitVec 2
  | .stopped => 0
  | .running => 1
  | .paused => 2

/-- `fault.kind` (R39, R170). -/
def FaultCause.kind : FaultCause → BitVec 3
  | .invalidOpcode => 1
  | .addressOutOfRange _ => 2
  | .stackOverflow => 3
  | .stackUnderflow => 4

/-- `fault.address`: meaningful for kind 2 only, else 0 (R39). -/
def FaultCause.address : FaultCause → BitVec 17
  | .addressOutOfRange a => a
  | .invalidOpcode | .stackOverflow | .stackUnderflow => 0

/-- The framebuffer as the 2048 bits of the port `frame`: the pixel in column `x`, row `y` is bit `y*64 + x` (R42). -/
def frameBits (f : Frame) : List Bool := f.toList.flatMap (fun row => (List.range 64).map (fun x => row.getLsbD x))

/-- The outputs of R44 that follow from the state alone. -/
structure Outputs where
  runState    : BitVec 2
  faultKind   : BitVec 3
  faultPc     : Word
  faultOpcode : Word
  faultAddr   : BitVec 17
  soundOn     : Bool
  dt          : Byte
  st          : Byte
  deriving DecidableEq, Repr

/-- The level outputs. With no fault recorded the other fields of the record read as 0 (log 11). -/
def State.outputs (s : State) : Outputs where
  runState    := s.runState.code
  faultKind   := match s.fault with | some f => f.cause.kind | none => 0
  faultPc     := match s.fault with | some f => f.pc | none => 0
  faultOpcode := match s.fault with | some f => f.opcode | none => 0
  faultAddr   := match s.fault with | some f => f.cause.address | none => 0
  soundOn     := decide (0 < s.st.toNat)
  dt          := s.dt
  st          := s.st

/-- `frame_valid` with `frame` for a step from `s` to `t`: the snapshot emitted in it, if any (R44, R96). -/
def frameOutput (s t : State) : Option (List Bool) := (t.trace.drop s.trace.length).head?.map frameBits

end Sys2Proof.Machine
end

