-- ==== Sys2Proof/Safety.lean ====
section
/-!
DEFINITION. The terms in which claims are stated: the parts of the state and what a step leaves unchanged, the effect of
a fault, the invariant of every run, and when an instruction is about to run.
-/

namespace Sys2Proof

/-! ### Who reads and writes what -/

/-- The instruction draws or clears (R42). -/
def Instr.draws : Instr → Prop
  | .cls | .drw _ _ _ => True
  | _ => False

/-- The registers an instruction may write (R21). -/
def Instr.writes : Instr → Reg → Prop
  | .ldImm x _ | .addImm x _ | .ldReg x _ | .orReg x _ | .andReg x _ | .xorReg x _ | .rnd x _ | .ldVxDt x
  | .ldVxK x => fun r => r = x
  | .addReg x _ | .subReg x _ | .shr x _ | .subn x _ | .shl x _ => fun r => r = x ∨ r = VF
  | .drw _ _ _ => fun r => r = VF
  | .loadRegs x => fun r => r ≤ x
  | _ => fun _ => False

/-- The registers an instruction reads (R21). -/
def Instr.reads : Instr → Reg → Prop
  | .seImm x _ | .sneImm x _ | .addImm x _ | .shr x _ | .shl x _ | .skp x | .sknp x | .ldDtVx x | .ldStVx x | .addI x
  | .ldF x | .ldB x => fun r => r = x
  | .seReg x y | .orReg x y | .andReg x y | .xorReg x y | .addReg x y | .subReg x y | .subn x y | .sneReg x y
  | .drw x y _ => fun r => r = x ∨ r = y
  | .ldReg _ y => fun r => r = y
  | .jpV0 _ => fun r => r = 0
  | .storeRegs x => fun r => r ≤ x
  | _ => fun _ => False

/-- The instructions that sample the key lines (R43). -/
def Instr.samplesKeys : Instr → Prop
  | .skp _ | .sknp _ | .ldVxK _ => True
  | _ => False

/-- The instruction that samples the random byte (R43). -/
def Instr.samplesRandom : Instr → Prop
  | .rnd _ _ => True
  | _ => False

/-- The one kind of fault an instruction can raise (R170, R178). -/
def Instr.mayRaise : Instr → Machine.FaultCause → Prop
  | .call _, c => c = .stackOverflow
  | .ret, c => c = .stackUnderflow
  | .drw _ _ _, c | .ldB _, c | .storeRegs _, c | .loadRegs _, c => ∃ a, c = .addressOutOfRange a
  | _, _ => False

end Sys2Proof

namespace Sys2Proof.Machine

/-! ### Frames -/

/-- The parts of the state, each as fine as an instruction can write it. -/
inductive Part where
  | reg (r : Reg)
  | pc
  | index
  | sp
  | stackEntry (k : Nat)
  | dt
  | st
  /-- The byte of memory at an address. -/
  | byte (a : Nat)
  /-- The pixel in a column and a row. -/
  | pixel (x : Fin 64) (y : Fin 32)
  | dirty
  | runState
  | stopReq
  | runDone
  | fault
  | key
  | rnd
  | cfg
  | events
  | trace
  deriving DecidableEq, Repr

/-- A part holds the same in both states; memory is compared by reading the byte. -/
def Part.same : Part → State → State → Prop
  | .reg r, s, t => t.reg r = s.reg r
  | .pc, s, t => t.pc = s.pc
  | .index, s, t => t.index = s.index
  | .sp, s, t => t.sp = s.sp
  | .stackEntry k, s, t => t.stack[k]? = s.stack[k]?
  | .dt, s, t => t.dt = s.dt
  | .st, s, t => t.st = s.st
  | .byte a, s, t => t.byteAt a = s.byteAt a
  | .pixel x y, s, t => pixelAt t.fb x y = pixelAt s.fb x y
  | .dirty, s, t => t.dirty = s.dirty
  | .runState, s, t => t.runState = s.runState
  | .stopReq, s, t => t.stopReq = s.stopReq
  | .runDone, s, t => t.runDone = s.runDone
  | .fault, s, t => t.fault = s.fault
  | .key, s, t => t.key = s.key
  | .rnd, s, t => t.rnd = s.rnd
  | .cfg, s, t => t.cfg = s.cfg
  | .events, s, t => t.events = s.events
  | .trace, s, t => t.trace = s.trace

/-- Every part outside `may` is unchanged from `s` to `t`. -/
def ChangesOnly (may : Part → Prop) (s t : State) : Prop := ∀ p : Part, ¬ may p → p.same s t

/-! ### Faults -/

/-- `t` is `s` after `raise` (R179): the record, `Stopped`, `run_done`, and nothing else. -/
def Faulted (cause : FaultCause) (opcode : Word) (s t : State) : Prop :=
  t.fault = some { cause := cause, pc := s.pc, opcode := opcode } ∧ t.runState = .stopped ∧ t.runDone = true ∧
  ChangesOnly (fun p => p = .fault ∨ p = .runState ∨ p = .runDone) s t

/-! ### When an instruction runs -/

/-- The event the next step delivers: the oldest one waiting, an engine cycle when none is (log 4). -/
def State.pendingEvent (s : State) : Event := s.events.headD .cycle

/-- The state with the pending event taken off the list. -/
def State.popEvent (s : State) : State := { s with events := s.events.tail }

/-- The next step is an engine cycle that fetches: the engine is `Running`, no stop is requested, and both bytes at `PC`
are in memory (R90 to R92). -/
def State.Ready (s : State) : Prop :=
  s.pendingEvent = .cycle ∧ s.runState = .running ∧ s.stopReq = false ∧ s.pc.toNat + 1 < 4096

/-- The word at `PC` is the instruction `i`. -/
def State.At (s : State) (i : Instr) : Prop := decodeWord s.fetchedWord = .ok i

/-! ### Effects of one shape -/

/-- `i` completes: it writes `b` to `V[x]`, advances `PC` by 2 (modulo 65536), and changes nothing else. -/
def WritesReg (i : Instr) (x : Reg) (b : Byte) (s : State) : Prop :=
  ∃ t, exec i s = .next t ∧ t.reg x = b ∧ t.pc = s.pc + 2 ∧ ChangesOnly (fun p => p = .pc ∨ p = .reg x) s t

/-- `i` completes: `VF` holds `flag`, `V[x]` holds `result` unless it is `VF`, `PC` advances by 2, and nothing else
changes (R121). The results are given as numbers. -/
def WritesRegAndFlag (i : Instr) (x : Reg) (result flag : Nat) (s : State) : Prop :=
  ∃ t, exec i s = .next t ∧ (x ≠ VF → (t.reg x).toNat = result) ∧ (t.reg VF).toNat = flag ∧ t.pc = s.pc + 2 ∧
    ChangesOnly (fun p => p = .pc ∨ p = .reg x ∨ p = .reg VF) s t

/-- `i` completes: `PC` advances by 4 if `taken`, else by 2, and nothing else changes (R108). -/
def Skips (i : Instr) (taken : Prop) (s : State) : Prop :=
  ∃ t, exec i s = .next t ∧ (taken → t.pc = s.pc + 4) ∧ (¬ taken → t.pc = s.pc + 2) ∧ ChangesOnly (· = .pc) s t

/-- `t` is `s` after `AddressOutOfRange` for an access that starts at `I` (R54, R146). -/
def DataFaulted (s t : State) : Prop :=
  ∃ a : BitVec 17, a.toNat = max s.index.toNat 4096 ∧ Faulted (.addressOutOfRange a) s.fetchedWord s t

/-- Some set bit of the sprite of DXYN lands on the pixel (R151, R152): row `r` and column `c` of the sprite go to column
`(VX + c) mod 64`, row `(VY + r) mod 32`; bit 7 of a row is its leftmost pixel. -/
def SpriteCovers (s : State) (x y : Reg) (n : Nat) (px : Fin 64) (py : Fin 32) : Prop :=
  ∃ r c, r < n ∧ c < 8 ∧ (s.byteAt (s.index.toNat + r)).getLsbD (7 - c) = true ∧
    px.val = ((s.reg x).toNat + c) % 64 ∧ py.val = ((s.reg y).toNat + r) % 32

/-- The pixel is lit. -/
def State.Lit (s : State) (x : Fin 64) (y : Fin 32) : Prop := pixelAt s.fb x y = true

/-! ### Reset -/

/-- The table of R35: the five rows of each digit. -/
def glyphRows : List (List Byte) :=
  [[0xF0, 0x90, 0x90, 0x90, 0xF0], [0x20, 0x60, 0x20, 0x20, 0x70], [0xF0, 0x10, 0xF0, 0x80, 0xF0],
   [0xF0, 0x10, 0xF0, 0x10, 0xF0], [0x90, 0x90, 0xF0, 0x10, 0x10], [0xF0, 0x80, 0xF0, 0x10, 0xF0],
   [0xF0, 0x80, 0xF0, 0x90, 0xF0], [0xF0, 0x10, 0x20, 0x40, 0x40], [0xF0, 0x90, 0xF0, 0x90, 0xF0],
   [0xF0, 0x90, 0xF0, 0x10, 0xF0], [0xF0, 0x90, 0xF0, 0x90, 0x90], [0xE0, 0x90, 0xE0, 0x90, 0xE0],
   [0xF0, 0x80, 0x80, 0x80, 0xF0], [0xE0, 0x90, 0x90, 0x90, 0xE0], [0xF0, 0x80, 0xF0, 0x80, 0xF0],
   [0xF0, 0x80, 0xF0, 0x80, 0x80]]

/-- Every row of the table of R46 but the outputs and the inputs. -/
structure HasResetValues (t : State) : Prop where
  regs     : ∀ r, t.reg r = 0
  pc       : t.pc = 0x200
  index    : t.index = 0
  sp       : t.sp = 0
  stack    : t.stack = List.replicate t.cfg.stackCapacity 0
  dt       : t.dt = 0
  st       : t.st = 0
  font     : ∀ d r, d < 16 → r < 5 → (glyphRows[d]?.bind (·[r]?)) = some (t.byteAt (t.cfg.fontBase + 5 * d + r))
  bytes    : ∀ a, a < t.cfg.fontBase ∨ t.cfg.fontBase + 80 ≤ a → t.byteAt a = 0
  fb       : ∀ x y, ¬ t.Lit x y
  dirty    : t.dirty = false
  runState : t.runState = .stopped
  stopReq  : t.stopReq = false
  runDone  : t.runDone = false
  fault    : t.fault = none

/-! ### Runs -/

/-- `n` steps, for claims about several events; `none` where a step does not answer a next state. -/
def runSteps : Nat → State → Option State
  | 0, s => some s
  | n + 1, s =>
    match step s with
    | .next t => runSteps n t
    | .fault _ => none
    | .refused _ => none

/-! ### The invariant of every run -/

/-- What holds between events from reset on, in every instance and under every order of events. -/
structure State.Inv (s : State) : Prop where
  /-- The instance is one the spec allows (R5). -/
  cfgAllowed : s.cfg.wellFormed = true
  /-- `0 ≤ SP ≤ capacity` (R29). -/
  spBounded : s.sp ≤ s.cfg.stackCapacity
  /-- The stack has `STACK_CAPACITY` entries (R29). -/
  stackSized : s.stack.length = s.cfg.stackCapacity
  /-- A return address is at most 0x1000 (R100). -/
  entriesBounded : ∀ a ∈ s.stack, a.toNat ≤ 0x1000
  /-- The reachable values of `PC` (R25). -/
  pcBounded : s.pc.toNat ≤ 0x10FE
  /-- The memory list is in canonical form. -/
  memCanonical : Memory.wf s.cfg.fontBase s.mem = true
  /-- `dirty` is 0 between events (R27). -/
  notDirty : s.dirty = false
  /-- A finished run is `Stopped` (R38). -/
  doneStopped : s.runDone = true → s.runState = .stopped
  /-- A recorded fault has ended the run, at the `PC` it records (R179). -/
  faultFinal : ∀ f, s.fault = some f → s.runDone = true ∧ f.pc = s.pc
  /-- A recorded address is one that does not exist (R172). -/
  faultAddress : ∀ f a, s.fault = some f → f.cause = .addressOutOfRange a → 4096 ≤ a.toNat

end Sys2Proof.Machine
end

