-- ==== Sys2Proof/Certificates/Slice0/Obligations.lean ====
section
/-!
DEFINITION. The statements for the provers. Each docstring says what the statement formalises; a clause marked with a log
entry rests on a choice of the model, not on a rule of the spec.
-/

open Sys2Proof Sys2Proof.Machine

/-- O1. For every well-formed instruction, with every operand at every value its field admits, the decoder reads the
instruction back from its word, and from its two bytes followed by anything, leaving the rest; and whenever the
decoder reads an instruction from a word, that instruction is well-formed and its word is that same word. (Derived
from 30_encoding.md 3. Opcode map, 40_cycle.md (decode).) -/
def Obligations.DecodeAndEncodeAgree : Prop :=
  (∀ i : Instr, i.wellFormed = true →
    decodeWord (encodeWord i) = .ok i ∧ ∀ rest : List Byte, decode (encode i ++ rest) = .ok (i, rest)) ∧
  ∀ (w : Word) (i : Instr), decodeWord w = .ok i → i.wellFormed = true ∧ encodeWord i = w

/-- O2. The table has 34 rows, and no 16-bit word matches the mask and match of two different rows. (Derived from
30_encoding.md 3. Opcode map.) -/
def Obligations.NoWordMatchesTwoRows : Prop :=
  opcodeTable.length = 34 ∧
    ∀ (w : Word) (j k : Nat) (r r' : OpcodeRow), opcodeTable[j]? = some r → opcodeTable[k]? = some r' →
      r.hits w = true → r'.hits w = true → j = k

/-- O3. A word decodes to Unknown exactly when it is in family 0 and neither 00E0 nor 00EE, in family 5 or 9 with n not 0,
in family 8 with n in 8, 9, A, B, C, D, F, in family E with nn neither 9E nor A1, or in family F with nn not one of
the nine listed values. (Derived from 30_encoding.md 4. Invalid encodings.) -/
def Obligations.UnknownWordsAreTheListedOnes : Prop :=
  ∀ w : Word, decodeWord w = .error (.unknown w) ↔
    (fieldOp w = 0x0 ∧ w ≠ 0x00E0 ∧ w ≠ 0x00EE) ∨
    (fieldOp w = 0x5 ∧ fieldN w ≠ 0) ∨
    (fieldOp w = 0x8 ∧ fieldN w ∈ [0x8, 0x9, 0xA, 0xB, 0xC, 0xD, 0xF]) ∨
    (fieldOp w = 0x9 ∧ fieldN w ≠ 0) ∨
    (fieldOp w = 0xE ∧ fieldNN w ∉ ([0x9E, 0xA1] : List Byte)) ∨
    (fieldOp w = 0xF ∧ fieldNN w ∉ ([0x07, 0x0A, 0x15, 0x18, 0x1E, 0x29, 0x33, 0x55, 0x65] : List Byte))

/-- O4. op is bits 15 to 12, x bits 11 to 8, y bits 7 to 4, n bits 3 to 0, nn bits 7 to 0, nnn bits 11 to 0, as unsigned
numbers; nn is 16y + n, nnn is 256x + nn; of the two bytes, op and x are the high and low nibble of the first and nn
is the second. (States R71.) -/
def Obligations.FieldsAreTheNamedBits : Prop :=
  (∀ w : Word,
    (fieldOp w).toNat = w.toNat / 4096 ∧ (fieldX w).val = w.toNat / 256 % 16 ∧ (fieldY w).val = w.toNat / 16 % 16 ∧
    fieldN w = w.toNat % 16 ∧ (fieldNN w).toNat = w.toNat % 256 ∧ (fieldNNN w).toNat = w.toNat % 4096 ∧
    (fieldNN w).toNat = 16 * (fieldY w).val + fieldN w ∧ (fieldNNN w).toNat = 256 * (fieldX w).val + (fieldNN w).toNat) ∧
  ∀ hi lo : Byte,
    (fieldOp (wordOfBytes hi lo)).toNat = hi.toNat / 16 ∧ (fieldX (wordOfBytes hi lo)).val = hi.toNat % 16 ∧
    fieldNN (wordOfBytes hi lo) = lo

/-- O5. Words written out from the patterns, one or more of each family, decode to their instruction with their operands;
the nearest words that match no row do not. (Derived from 95_test_vectors.md 2.6, 30_encoding.md 3. Opcode map.) -/
def Obligations.WordsReadAsTheirInstructions : Prop :=
  decodeWord 0x00E0 = .ok .cls ∧ decodeWord 0x00EE = .ok .ret ∧ decodeWord 0x1ABC = .ok (.jp 0xABC) ∧
  decodeWord 0x2ABC = .ok (.call 0xABC) ∧ decodeWord 0x332A = .ok (.seImm 3 0x2A) ∧
  decodeWord 0x432A = .ok (.sneImm 3 0x2A) ∧ decodeWord 0x5120 = .ok (.seReg 1 2) ∧
  decodeWord 0x6AFF = .ok (.ldImm 10 0xFF) ∧ decodeWord 0x7105 = .ok (.addImm 1 0x05) ∧
  decodeWord 0x8AB6 = .ok (.shr 10 11) ∧ decodeWord 0x9120 = .ok (.sneReg 1 2) ∧
  decodeWord 0xA2F0 = .ok (.ldI 0x2F0) ∧ decodeWord 0xB2F0 = .ok (.jpV0 0x2F0) ∧
  decodeWord 0xC10F = .ok (.rnd 1 0x0F) ∧ decodeWord 0xDABC = .ok (.drw 10 11 12) ∧
  decodeWord 0xE29E = .ok (.skp 2) ∧ decodeWord 0xFF65 = .ok (.loadRegs 15) ∧
  decodeWord 0x5121 = .error (.unknown 0x5121) ∧ decodeWord 0x812F = .error (.unknown 0x812F) ∧
  decodeWord 0xE2A0 = .error (.unknown 0xE2A0) ∧ decodeWord 0xF230 = .error (.unknown 0xF230)

/-- O6. As a number the word of the instruction at PC is 256 times the byte at PC plus the byte at PC+1, whatever the
parity of PC. (Derived from 20_memory.md 1. Byte order.) -/
def Obligations.FetchIsBigEndian : Prop :=
  ∀ s : State,
    s.fetchedWord.toNat = 256 * (s.byteAt s.pc.toNat).toNat + (s.byteAt (s.pc.toNat + 1)).toNat

/-- O7. On every state whose stack is well sized, 00EE (word 0x00EE) completes: with SP = 0 it raises StackUnderflow and
changes nothing else; otherwise SP goes down by one, PC takes the entry at the new SP with nothing added, and nothing
else changes. (States R100.) -/
def Obligations.ReturnPopsTheStack : Prop :=
  encodeWord .ret = 0x00EE ∧
  ∀ s : State, s.stack.length = s.cfg.stackCapacity → s.sp ≤ s.cfg.stackCapacity →
    ∃ t, exec .ret s = .next t ∧
      (s.sp = 0 → Faulted .stackUnderflow s.fetchedWord s t) ∧
      (0 < s.sp → t.sp + 1 = s.sp ∧ s.stack[t.sp]? = some t.pc ∧ ChangesOnly (fun p => p = .pc ∨ p = .sp) s t)

/-- O8. On every state 1NNN completes with PC equal to NNN, and BNNN completes with PC equal to NNN plus V0 as an exact
sum not reduced to 12 bits; I and everything else is unchanged. (States R101, R107.) -/
def Obligations.JumpsGoToTheirTargets : Prop :=
  ∀ (nnn : BitVec 12) (s : State),
    (encodeWord (.jp nnn)).toNat = 0x1000 + nnn.toNat ∧ (encodeWord (.jpV0 nnn)).toNat = 0xB000 + nnn.toNat ∧
    (∃ t, exec (.jp nnn) s = .next t ∧ t.pc.toNat = nnn.toNat ∧ ChangesOnly (· = .pc) s t) ∧
    (∃ t, exec (.jpV0 nnn) s = .next t ∧ t.pc.toNat = nnn.toNat + (s.reg 0).toNat ∧ ChangesOnly (· = .pc) s t)

/-- O9. On every state whose stack is well sized, 2NNN completes: with every entry in use it raises StackOverflow and
changes nothing else; otherwise the entry at SP holds PC + 2, SP goes up by one, PC is NNN, and nothing else changes.
(States R102.) -/
def Obligations.CallPushesTheReturnAddress : Prop :=
  ∀ (nnn : BitVec 12) (s : State), s.stack.length = s.cfg.stackCapacity → s.sp ≤ s.cfg.stackCapacity →
    (encodeWord (.call nnn)).toNat = 0x2000 + nnn.toNat ∧
    ∃ t, exec (.call nnn) s = .next t ∧
      (s.sp = s.cfg.stackCapacity → Faulted .stackOverflow s.fetchedWord s t) ∧
      (s.sp < s.cfg.stackCapacity →
        t.stack[s.sp]? = some (s.pc + 2) ∧ t.sp = s.sp + 1 ∧ t.pc.toNat = nnn.toNat ∧
        ChangesOnly (fun p => p = .pc ∨ p = .sp ∨ p = .stackEntry s.sp) s t)

/-- O10. On every state each of the four completes: PC advances by 4 when the values compared are equal (3XNN, 5XY0) or
differ (4XNN, 9XY0), by 2 otherwise, and nothing else changes; 9XY0 compares the register values, not the numbers X
and Y. (States R103, R104, R105, R106.) -/
def Obligations.SkipsCompareRegisterValues : Prop :=
  ∀ (x y : Reg) (nn : Byte) (s : State),
    (encodeWord (.seImm x nn)).toNat = 0x3000 + 256 * x.val + nn.toNat ∧
    (encodeWord (.sneImm x nn)).toNat = 0x4000 + 256 * x.val + nn.toNat ∧
    (encodeWord (.seReg x y)).toNat = 0x5000 + 256 * x.val + 16 * y.val ∧
    (encodeWord (.sneReg x y)).toNat = 0x9000 + 256 * x.val + 16 * y.val ∧
    Skips (.seImm x nn) ((s.reg x).toNat = nn.toNat) s ∧
    Skips (.sneImm x nn) ((s.reg x).toNat ≠ nn.toNat) s ∧
    Skips (.seReg x y) ((s.reg x).toNat = (s.reg y).toNat) s ∧
    Skips (.sneReg x y) ((s.reg x).toNat ≠ (s.reg y).toNat) s

/-- O11. On every state, for every level of the key lines, EX9E completes with PC advanced by 4 if the key numbered by the
low nibble of VX is pressed and by 2 otherwise; EXA1 the other way round; nothing else changes. (States R160, R161.) -/
def Obligations.SkipsTestOneKey : Prop :=
  ∀ (x : Reg) (s : State),
    (encodeWord (.skp x)).toNat = 0xE09E + 256 * x.val ∧ (encodeWord (.sknp x)).toNat = 0xE0A1 + 256 * x.val ∧
    Skips (.skp x) (s.key.getLsbD ((s.reg x).toNat % 16) = true) s ∧
    Skips (.sknp x) (s.key.getLsbD ((s.reg x).toNat % 16) = false) s

/-- O12. From every state that meets the invariant, ready to run a 2NNN with a free stack entry and with 00EE at NNN, two
steps without other events lead to PC + 2 with SP as before; only PC and the used stack entry have changed. (Derived
from 95_test_vectors.md T4, 41_control_flow.md.) -/
def Obligations.CallThenReturnComesBack : Prop :=
  ∀ (s : State) (nnn : BitVec 12), s.Inv → s.Ready → s.events = [] → s.At (.call nnn) →
    s.sp < s.cfg.stackCapacity → nnn.toNat + 1 < 4096 →
    s.byteAt nnn.toNat = 0x00 → s.byteAt (nnn.toNat + 1) = 0xEE →
    ∃ t, runSteps 2 s = some t ∧ t.pc = s.pc + 2 ∧ t.sp = s.sp ∧
      ChangesOnly (fun p => p = .pc ∨ p = .stackEntry s.sp) s t

/-- O13. On every state each completes with VX holding NN, VY, or the bitwise OR, AND or exclusive OR of the old VX and
VY, given bit by bit; PC advances by 2 and nothing else changes, VF included unless X = F. (States R122, R124, R125,
R126, R127.) -/
def Obligations.LoadsAndLogicWriteOneRegister : Prop :=
  ∀ (x y : Reg) (nn : Byte) (s : State),
    (encodeWord (.ldImm x nn)).toNat = 0x6000 + 256 * x.val + nn.toNat ∧
    (encodeWord (.ldReg x y)).toNat = 0x8000 + 256 * x.val + 16 * y.val ∧
    (encodeWord (.orReg x y)).toNat = 0x8001 + 256 * x.val + 16 * y.val ∧
    (encodeWord (.andReg x y)).toNat = 0x8002 + 256 * x.val + 16 * y.val ∧
    (encodeWord (.xorReg x y)).toNat = 0x8003 + 256 * x.val + 16 * y.val ∧
    WritesReg (.ldImm x nn) x nn s ∧
    WritesReg (.ldReg x y) x (s.reg y) s ∧
    (∃ b, WritesReg (.orReg x y) x b s ∧
      ∀ k, k < 8 → (b.getLsbD k = true ↔ (s.reg x).getLsbD k = true ∨ (s.reg y).getLsbD k = true)) ∧
    (∃ b, WritesReg (.andReg x y) x b s ∧
      ∀ k, k < 8 → (b.getLsbD k = true ↔ (s.reg x).getLsbD k = true ∧ (s.reg y).getLsbD k = true)) ∧
    (∃ b, WritesReg (.xorReg x y) x b s ∧
      ∀ k, k < 8 → (b.getLsbD k = true ↔ ¬ ((s.reg x).getLsbD k = true ↔ (s.reg y).getLsbD k = true)))

/-- O14. On every state 7XNN completes with VX holding the old VX plus NN modulo 256; PC advances by 2 and nothing else
changes, VF included unless X = F, where it receives the sum. (States R123.) -/
def Obligations.AddImmediateWrapsWithoutFlag : Prop :=
  ∀ (x : Reg) (nn : Byte) (s : State),
    (encodeWord (.addImm x nn)).toNat = 0x7000 + 256 * x.val + nn.toNat ∧
    ∃ b : Byte, WritesReg (.addImm x nn) x b s ∧ b.toNat = ((s.reg x).toNat + nn.toNat) % 256

/-- O15. On every state, for every X and Y, 8XY4 completes with VX (if not VF) holding the sum of the old values modulo
256 and VF holding 1 if the sum exceeds 255 and 0 otherwise, computed from the old values also when X or Y is F; PC
advances by 2 and nothing else changes. (States R128.) -/
def Obligations.AddReportsCarry : Prop :=
  ∀ (x y : Reg) (s : State),
    (encodeWord (.addReg x y)).toNat = 0x8004 + 256 * x.val + 16 * y.val ∧
    WritesRegAndFlag (.addReg x y) x (((s.reg x).toNat + (s.reg y).toNat) % 256)
      (if (s.reg x).toNat + (s.reg y).toNat > 255 then 1 else 0) s

/-- O16. On every state, for every X and Y, 8XY5 completes with VX - VY and 8XY7 with VY - VX, modulo 256, in VX (if not
VF), and VF is 0 when the minuend is less than the subtrahend and 1 otherwise, equal operands included; PC advances by
2 and nothing else changes. (States R129, R131.) -/
def Obligations.SubtractionsReportNoBorrow : Prop :=
  ∀ (x y : Reg) (s : State),
    (encodeWord (.subReg x y)).toNat = 0x8005 + 256 * x.val + 16 * y.val ∧
    (encodeWord (.subn x y)).toNat = 0x8007 + 256 * x.val + 16 * y.val ∧
    WritesRegAndFlag (.subReg x y) x (((s.reg x).toNat + 256 - (s.reg y).toNat) % 256)
      (if (s.reg x).toNat < (s.reg y).toNat then 0 else 1) s ∧
    WritesRegAndFlag (.subn x y) x (((s.reg y).toNat + 256 - (s.reg x).toNat) % 256)
      (if (s.reg y).toNat < (s.reg x).toNat then 0 else 1) s

/-- O17. On every state, for every Y, 8XY6 completes with VX / 2 in VX (if not VF) and VX mod 2 in VF, and 8XYE with 2 VX
mod 256 and the top bit VX / 128, both from the old VX; PC advances by 2 and nothing else changes. (States R130,
R132.) -/
def Obligations.ShiftsMoveOneBitIntoTheFlag : Prop :=
  ∀ (x y : Reg) (s : State),
    (encodeWord (.shr x y)).toNat = 0x8006 + 256 * x.val + 16 * y.val ∧
    (encodeWord (.shl x y)).toNat = 0x800E + 256 * x.val + 16 * y.val ∧
    WritesRegAndFlag (.shr x y) x ((s.reg x).toNat / 2) ((s.reg x).toNat % 2) s ∧
    WritesRegAndFlag (.shl x y) x (2 * (s.reg x).toNat % 256) ((s.reg x).toNat / 128) s

/-- O18. For every value of the input rnd, CXNN completes with VX holding that value ANDed with NN, so no bit is set that
NN has clear; PC advances by 2 and nothing else changes. (States R133.) -/
def Obligations.RandomByteIsMasked : Prop :=
  ∀ (x : Reg) (nn r : Byte) (s : State), s.rnd = r →
    (encodeWord (.rnd x nn)).toNat = 0xC000 + 256 * x.val + nn.toNat ∧
    ∃ b, WritesReg (.rnd x nn) x b s ∧
      ∀ k, k < 8 → (b.getLsbD k = true ↔ r.getLsbD k = true ∧ nn.getLsbD k = true)

/-- O19. On every state of an allowed instance each completes with I holding that value; PC advances by 2 and nothing else
changes, VF and memory included. (States R140, R141, R142.) -/
def Obligations.IndexRegisterInstructions : Prop :=
  ∀ (nnn : BitVec 12) (x : Reg) (s : State), s.cfg.wellFormed = true →
    (encodeWord (.ldI nnn)).toNat = 0xA000 + nnn.toNat ∧
    (encodeWord (.addI x)).toNat = 0xF01E + 256 * x.val ∧ (encodeWord (.ldF x)).toNat = 0xF029 + 256 * x.val ∧
    (∃ t, exec (.ldI nnn) s = .next t ∧ t.index.toNat = nnn.toNat ∧ t.pc = s.pc + 2 ∧
      ChangesOnly (fun p => p = .pc ∨ p = .index) s t) ∧
    (∃ t, exec (.addI x) s = .next t ∧ t.index.toNat = (s.index.toNat + (s.reg x).toNat) % 65536 ∧ t.pc = s.pc + 2 ∧
      ChangesOnly (fun p => p = .pc ∨ p = .index) s t) ∧
    (∃ t, exec (.ldF x) s = .next t ∧ t.index.toNat = s.cfg.fontBase + 5 * ((s.reg x).toNat % 16) ∧ t.pc = s.pc + 2 ∧
      ChangesOnly (fun p => p = .pc ∨ p = .index) s t)

/-- O20. On every state with canonical memory FX33 completes: with I + 2 at 4096 or more it raises
AddressOutOfRange(max(I, 4096)) and changes nothing else; otherwise the three bytes hold the decimal digits of VX, PC
advances by 2, and every other byte and every other part is unchanged, I included. (States R143.) -/
def Obligations.DecimalDigitsAreStored : Prop :=
  ∀ (x : Reg) (s : State), Memory.wf s.cfg.fontBase s.mem = true →
    (encodeWord (.ldB x)).toNat = 0xF033 + 256 * x.val ∧
    ∃ t, exec (.ldB x) s = .next t ∧
      (4096 ≤ s.index.toNat + 2 → DataFaulted s t) ∧
      (s.index.toNat + 2 < 4096 →
        (t.byteAt s.index.toNat).toNat = (s.reg x).toNat / 100 ∧
        (t.byteAt (s.index.toNat + 1)).toNat = (s.reg x).toNat / 10 % 10 ∧
        (t.byteAt (s.index.toNat + 2)).toNat = (s.reg x).toNat % 10 ∧
        t.pc = s.pc + 2 ∧
        ChangesOnly (fun p => p = .pc ∨ ∃ a, p = .byte a ∧ s.index.toNat ≤ a ∧ a < s.index.toNat + 3) s t)

/-- O21. On every state with canonical memory FX55 completes: with I + X at 4096 or more it raises
AddressOutOfRange(max(I, 4096)) and changes nothing else; otherwise the byte at I + q holds Vq for every q up to X, PC
advances by 2, and every other byte and every other part is unchanged, I included. (States R144.) -/
def Obligations.RegistersAreStored : Prop :=
  ∀ (x : Reg) (s : State), Memory.wf s.cfg.fontBase s.mem = true →
    (encodeWord (.storeRegs x)).toNat = 0xF055 + 256 * x.val ∧
    ∃ t, exec (.storeRegs x) s = .next t ∧
      (4096 ≤ s.index.toNat + x.val → DataFaulted s t) ∧
      (s.index.toNat + x.val < 4096 →
        (∀ q : Reg, q ≤ x → t.byteAt (s.index.toNat + q.val) = s.reg q) ∧
        t.pc = s.pc + 2 ∧
        ChangesOnly (fun p => p = .pc ∨ ∃ a, p = .byte a ∧ s.index.toNat ≤ a ∧ a ≤ s.index.toNat + x.val) s t)

/-- O22. On every state FX65 completes: with I + X at 4096 or more it raises AddressOutOfRange(max(I, 4096)) and changes
nothing else; otherwise Vq holds the byte at I + q for every q up to X, PC advances by 2, and nothing else changes,
the registers above VX and I included. (States R145.) -/
def Obligations.RegistersAreLoaded : Prop :=
  ∀ (x : Reg) (s : State),
    (encodeWord (.loadRegs x)).toNat = 0xF065 + 256 * x.val ∧
    ∃ t, exec (.loadRegs x) s = .next t ∧
      (4096 ≤ s.index.toNat + x.val → DataFaulted s t) ∧
      (s.index.toNat + x.val < 4096 →
        (∀ q : Reg, q ≤ x → t.reg q = s.byteAt (s.index.toNat + q.val)) ∧
        t.pc = s.pc + 2 ∧
        ChangesOnly (fun p => p = .pc ∨ ∃ q : Reg, p = .reg q ∧ q ≤ x) s t)

/-- O23. For every I and every length, an access of that many bytes from I is out of range exactly when it would touch an
address of 4096 or more, and then the reported 17-bit address is the least such address, with no wrap at 16 bits.
(Derived from 20_memory.md 3. (bounds check), 43_index_memory.md (bounds check).) -/
def Obligations.ReportedAddressIsTheSmallestInvalid : Prop :=
  ∀ (base : Word) (len : Nat),
    (outOfRange base.toNat len = true ↔ ∃ a, base.toNat ≤ a ∧ a < base.toNat + len ∧ 4096 ≤ a) ∧
    (outOfRange base.toNat len = true →
      IsLeast {a : Nat | base.toNat ≤ a ∧ a < base.toNat + len ∧ 4096 ≤ a} (firstInvalid base.toNat).toNat)

/-- O24. From a state ready to run FX55 with canonical memory, whose stored bytes cover PC+2 and PC+3 and stay in memory,
the step leads to PC + 2, where the fetched word is made of the two registers stored there. (Derived from 20_memory.md
6. (instruction-fetch coherence).) -/
def Obligations.StoresAreFetchedNext : Prop :=
  ∀ (s : State) (x hi lo : Reg), Memory.wf s.cfg.fontBase s.mem = true → s.Ready → s.At (.storeRegs x) →
    s.index.toNat + x.val < 4096 → hi ≤ x → lo ≤ x →
    s.index.toNat + hi.val = s.pc.toNat + 2 → s.index.toNat + lo.val = s.pc.toNat + 3 →
    ∃ t, step s = .next t ∧ t.pc = s.pc + 2 ∧ t.fetchedWord = wordOfBytes (s.reg hi) (s.reg lo)

/-- O25. On every state 00E0 (word 0x00E0) completes with every pixel unlit, dirty set even if the framebuffer was clear,
PC advanced by 2, and nothing else changed, VF included; a cycle that runs it, from a state ready to run it, then
emits exactly one snapshot, the cleared framebuffer, and clears dirty. (States R150.) -/
def Obligations.ClearMakesEveryPixelUnlit : Prop :=
  encodeWord .cls = 0x00E0 ∧
  (∀ s : State, ∃ t, exec .cls s = .next t ∧ (∀ x y, ¬ t.Lit x y) ∧ t.dirty = true ∧ t.pc = s.pc + 2 ∧
    ChangesOnly (fun p => p = .pc ∨ p = .dirty ∨ ∃ x y, p = .pixel x y) s t) ∧
  ∀ s : State, s.Ready → s.At .cls →
    ∃ t, step s = .next t ∧ (∀ x y, ¬ t.Lit x y) ∧ t.trace = s.trace ++ [t.fb] ∧ t.dirty = false

/-- O26. On every state, for every X, Y and N below 16, DXYN completes: with N > 0 and I + N - 1 at 4096 or more it raises
AddressOutOfRange(max(I, 4096)) and changes nothing else; otherwise a pixel is lit after it exactly when one of 'lit
before' and 'some set sprite bit lands on it' holds and the other does not, columns modulo 64 and rows modulo 32, from
the old VX, VY and I; VF is 1 if some such pixel was lit before and 0 otherwise; dirty is set, PC advances by 2, and
nothing else changes. (States R151.) -/
def Obligations.DrawTogglesTheSpritePixels : Prop :=
  ∀ (x y : Reg) (n : Nat) (s : State), n < 16 →
    (encodeWord (.drw x y n)).toNat = 0xD000 + 256 * x.val + 16 * y.val + n ∧
    ∃ t, exec (.drw x y n) s = .next t ∧
      (0 < n ∧ 4096 ≤ s.index.toNat + n - 1 → DataFaulted s t) ∧
      (¬ (0 < n ∧ 4096 ≤ s.index.toNat + n - 1) →
        (∀ px py, t.Lit px py ↔ ¬ (s.Lit px py ↔ SpriteCovers s x y n px py)) ∧
        ((∃ px py, s.Lit px py ∧ SpriteCovers s x y n px py) → t.reg VF = 1) ∧
        ((¬ ∃ px py, s.Lit px py ∧ SpriteCovers s x y n px py) → t.reg VF = 0) ∧
        t.dirty = true ∧ t.pc = s.pc + 2 ∧
        ChangesOnly (fun p => p = .pc ∨ p = .dirty ∨ p = .reg VF ∨ ∃ px py, p = .pixel px py) s t)

/-- O27. For a DXYN in range executed twice with nothing in between, where X and Y differ from F or the first draw left VF
as it was: the second draw leaves every pixel as before the first; if every pixel the sprite covers was unlit before
and it covers at least one, the first draw gives VF = 0 and the second VF = 1. (States R153.) -/
def Obligations.SecondDrawRestoresTheScreen : Prop :=
  ∀ (x y : Reg) (n : Nat) (s t u : State), n < 16 → ¬ (0 < n ∧ 4096 ≤ s.index.toNat + n - 1) →
    exec (.drw x y n) s = .next t → exec (.drw x y n) t = .next u →
    (x ≠ VF ∧ y ≠ VF ∨ t.reg VF = s.reg VF) →
    (∀ px py, u.Lit px py ↔ s.Lit px py) ∧
    ((∀ px py, SpriteCovers s x y n px py → ¬ s.Lit px py) → (∃ px py, SpriteCovers s x y n px py) →
      t.reg VF = 0 ∧ u.reg VF = 1)

/-- O28. In every step from a state with dirty clear and no run finished: if the step runs an instruction that draws or
clears and does not fault, the trace grows by exactly the framebuffer after the step; in every other step the trace is
unchanged; dirty is clear after every step. (Derived from 40_cycle.md (snapshot), 10_state.md 3. Flags.) -/
def Obligations.SnapshotsFollowDrawing : Prop :=
  ∀ s t : State, s.dirty = false → s.runDone = false → step s = .next t →
    t.dirty = false ∧
    ((s.Ready ∧ (∃ i, s.At i ∧ i.draws) ∧ t.runDone = false) → t.trace = s.trace ++ [t.fb]) ∧
    (¬ (s.Ready ∧ (∃ i, s.At i ∧ i.draws) ∧ t.runDone = false) → t.trace = s.trace)

/-- O29. On every state each completes: FX07 with VX holding DT, FX15 with DT holding VX, FX18 with ST holding VX and
sound_on high exactly when VX is not 0; PC advances by 2 and nothing else changes. (States R162, R165, R166.) -/
def Obligations.TimerInstructionsMoveOneByte : Prop :=
  ∀ (x : Reg) (s : State),
    (encodeWord (.ldVxDt x)).toNat = 0xF007 + 256 * x.val ∧ (encodeWord (.ldDtVx x)).toNat = 0xF015 + 256 * x.val ∧
    (encodeWord (.ldStVx x)).toNat = 0xF018 + 256 * x.val ∧
    WritesReg (.ldVxDt x) x s.dt s ∧
    (∃ t, exec (.ldDtVx x) s = .next t ∧ t.dt = s.reg x ∧ t.pc = s.pc + 2 ∧
      ChangesOnly (fun p => p = .pc ∨ p = .dt) s t) ∧
    (∃ t, exec (.ldStVx x) s = .next t ∧ t.st = s.reg x ∧ (t.outputs.soundOn = true ↔ s.reg x ≠ 0) ∧ t.pc = s.pc + 2 ∧
      ChangesOnly (fun p => p = .pc ∨ p = .st) s t)

/-- O30. On every state FX0A completes: with no key down the state is exactly as it was, and a whole step that runs it
from a ready state with no event waiting and dirty clear leaves exactly the same state; with some key down VX holds
the number of the lowest one, PC advances by 2, and nothing else changes. (Derived from 45_timers_keys.md (FX0A).) -/
def Obligations.KeyWaitTakesTheLowestKey : Prop :=
  ∀ (x : Reg) (s : State),
    (encodeWord (.ldVxK x)).toNat = 0xF00A + 256 * x.val ∧
    (s.key = 0 → exec (.ldVxK x) s = .next s) ∧
    (s.key = 0 → s.Ready → s.At (.ldVxK x) → s.events = [] → s.dirty = false → step s = .next s) ∧
    ∀ k, k < 16 → s.key.getLsbD k = true → (∀ j, j < k → s.key.getLsbD j = false) →
      WritesReg (.ldVxK x) x (BitVec.ofNat 8 k) s

/-- O31. In every run state, when a tick is the pending event, the step answers a next state in which DT and ST are one
less, or still 0, and only they and the delivered event have changed. (States R185.) -/
def Obligations.TickCountsBothTimersDown : Prop :=
  ∀ s : State, s.pendingEvent = .tick →
    ∃ t, step s = .next t ∧ t.dt.toNat = s.dt.toNat - 1 ∧ t.st.toNat = s.st.toNat - 1 ∧
      ChangesOnly (fun p => p = .dt ∨ p = .st ∨ p = .events) s t

/-- O32. From every state with n ticks waiting and nothing else, n steps take DT and ST down by n, not below zero, and
change nothing else. (Derived from 95_test_vectors.md T7, 60_exceptions.md 5. Timers.) -/
def Obligations.TicksClampAtZero : Prop :=
  ∀ (n : Nat) (s : State), s.events = List.replicate n .tick →
    ∃ t, runSteps n s = some t ∧ t.dt.toNat = s.dt.toNat - n ∧ t.st.toNat = s.st.toNat - n ∧
      ChangesOnly (fun p => p = .dt ∨ p = .st ∨ p = .events) s t

/-- O33. For a clock with tick60 and cycle_en high and no other strobe, starting from a state that can run the instruction
at PC: FX07 leaves VX and DT both one less than DT was (or 0), FX15 leaves DT equal to VX, FX18 leaves ST equal to VX.
(States R187.) -/
def Obligations.TickComesBeforeCycleInOneClock : Prop :=
  ∀ (c : Clock) (s : State) (x : Reg), c.rst = false → c.stop = false → c.pause = false → c.resume = false →
    c.start = false → c.load = none → c.tick60 = true → c.cycleEn = true → s.events = c.events →
    s.runState = .running → s.stopReq = false → s.pc.toNat + 1 < 4096 →
    (s.At (.ldVxDt x) → ∃ t, runSteps c.events.length s = some t ∧ t.events = [] ∧
      (t.reg x).toNat = s.dt.toNat - 1 ∧ t.dt.toNat = s.dt.toNat - 1) ∧
    (s.At (.ldDtVx x) → ∃ t, runSteps c.events.length s = some t ∧ t.events = [] ∧ t.dt = s.reg x) ∧
    (s.At (.ldStVx x) → ∃ t, runSteps c.events.length s = some t ∧ t.events = [] ∧ t.st = s.reg x)

/-- O34. When the pending event is a cycle, the engine is Running with no stop requested, and the word at PC decodes to i,
exec i answers a next state t on the state without the delivered event, and the step answers t, where, if t is still
Running with dirty set, the framebuffer has been appended to the trace and dirty cleared. (Derived from 40_cycle.md
(engine cycle).) -/
def Obligations.StepRunsTheDecodedInstruction : Prop :=
  ∀ (s : State) (i : Instr), s.Ready → s.At i →
    ∃ t, exec i s.popEvent = .next t ∧ step s = .next
      (if t.runState = .running ∧ t.dirty = true then { t with trace := t.trace ++ [t.fb], dirty := false } else t)

/-- O35. When the pending event is a cycle, the engine is Running or Paused and stop_req is set, the step leaves it
Stopped with run_done set and changes nothing else but the delivered event: nothing is fetched and fault stays as it
was, whatever stands at PC, an FX0A or an invalid word included. (States R91.) -/
def Obligations.StopRequestEndsTheRunFirst : Prop :=
  ∀ s : State, s.pendingEvent = .cycle → s.runState ≠ .stopped → s.stopReq = true →
    ∃ t, step s = .next t ∧ t.runState = .stopped ∧ t.runDone = true ∧
      ChangesOnly (fun p => p = .runState ∨ p = .runDone ∨ p = .events) s t

/-- O36. In a cycle of a Running engine with no stop requested and PC at 4095 or more, the step faults with the address PC
if that is 4096 or more and 4096 if PC is 4095, records opcode 0, and changes nothing else; with PC below 4095 no
AddressOutOfRange with opcode 0 arises from the fetch: the instruction at PC is executed or InvalidOpcode is raised,
odd PC included. (States R92.) -/
def Obligations.FetchOutsideMemoryFaults : Prop :=
  ∀ s : State, s.pendingEvent = .cycle → s.runState = .running → s.stopReq = false →
    (4095 ≤ s.pc.toNat → ∃ t, ∃ a : BitVec 17, step s = .next t ∧
      a.toNat = (if 4096 ≤ s.pc.toNat then s.pc.toNat else 4096) ∧
      Faulted (.addressOutOfRange a) 0 s.popEvent t) ∧
    (s.pc.toNat < 4095 →
      (∃ i, s.At i ∧ step s = executeAndEmit i s.popEvent) ∨
      (∃ t, step s = .next t ∧ Faulted .invalidOpcode s.fetchedWord s.popEvent t))

/-- O37. From a ready state whose word at PC decodes to no instruction, the step records InvalidOpcode with that PC and
that word, stops the engine with run_done set, and changes nothing else but the delivered event; the word 0x0000 is
such a word. (States R94.) -/
def Obligations.InvalidOpcodeHaltsPrecisely : Prop :=
  (∀ s : State, s.Ready → decodeWord s.fetchedWord = .error (.unknown s.fetchedWord) →
    ∃ t, step s = .next t ∧ Faulted .invalidOpcode s.fetchedWord s.popEvent t) ∧
  decodeWord 0x0000 = .error (.unknown 0x0000)

/-- O38. When the pending event is a cycle and the engine is Stopped, or Paused with no stop requested, the step only
takes the event off the list; a Paused engine with a stop requested stops; a tick takes the same effect in every run
state. (States R97.) -/
def Obligations.CyclesOutsideRunningDoNothing : Prop :=
  (∀ s : State, s.pendingEvent = .cycle → (s.runState = .stopped ∨ s.runState = .paused ∧ s.stopReq = false) →
    step s = .next s.popEvent) ∧
  (∀ s : State, s.pendingEvent = .cycle → s.runState = .paused → s.stopReq = true →
    ∃ t, step s = .next t ∧ t.runState = .stopped) ∧
  ∀ (s t : State) (r : RunState), s.pendingEvent = .tick → step s = .next t →
    step { s with runState := r } = .next { t with runState := r }

/-- O39. In a cycle of a Running engine with no stop requested and no run finished, if the run ends then the step is a
fault entry that changes nothing but fault, run_state and run_done: a fetch AddressOutOfRange with opcode 0 exactly
when PC + 1 is outside memory, else InvalidOpcode with the fetched word exactly when it decodes to nothing, else the
one kind of fault the decoded instruction can raise, with the fetched word. (Derived from 60_exceptions.md 1.
Synchronous faults, 60_exceptions.md 2. (priority), 60_exceptions.md 3. Fault entry.) -/
def Obligations.FaultsArePreciseAndOrdered : Prop :=
  ∀ s t : State, s.pendingEvent = .cycle → s.runState = .running → s.stopReq = false → s.runDone = false →
    step s = .next t → t.runDone = true →
    ∃ c w, Faulted c w s.popEvent t ∧
      ((4096 ≤ s.pc.toNat + 1 ∧ w = 0 ∧ ∃ a, c = .addressOutOfRange a) ∨
       (s.Ready ∧ w = s.fetchedWord ∧ c = .invalidOpcode ∧ decodeWord w = .error (.unknown w)) ∨
       (s.Ready ∧ w = s.fetchedWord ∧ ∃ i, s.At i ∧ i.mayRaise c))

/-- O40. In every step in which run_done goes from 0 to 1 the engine becomes Stopped, and either a stop request was set
and only the run state has changed, or the step is a fault entry. (Derived from 40_cycle.md (the end of a run),
90_conflicts.md C5.) -/
def Obligations.RunsEndByStopOrFault : Prop :=
  ∀ s t : State, step s = .next t → s.runDone = false → t.runDone = true →
    t.runState = .stopped ∧ s.pendingEvent = .cycle ∧
    ((s.stopReq = true ∧ ChangesOnly (fun p => p = .runState ∨ p = .runDone ∨ p = .events) s t) ∨
     (s.stopReq = false ∧ ∃ c w, Faulted c w s.popEvent t))

/-- O41. From a Stopped state with run_done set, a step that delivers anything but reset changes only DT, ST, stop_req,
the input lines and the list of events: load, start, pause, resume and cycles are ignored and the fault record stays.
(Derived from 60_exceptions.md 3. Fault entry and what follows, 10_state.md 6. Engine control state.) -/
def Obligations.FinishedRunNeedsReset : Prop :=
  ∀ s t : State, s.runState = .stopped → s.runDone = true → s.pendingEvent ≠ .reset → step s = .next t →
    ChangesOnly (fun p => p = .dt ∨ p = .st ∨ p = .stopReq ∨ p = .key ∨ p = .rnd ∨ p = .events) s t ∧
    (s.pendingEvent ≠ .tick → t.dt = s.dt ∧ t.st = s.st)

/-- O42. For each host event but reset, in every state with canonical memory, the step answers a next state: where the
event is enabled its named part takes its value and nothing else changes but the list of events; where it is not
enabled only the list of events changes. (Derived from 10_state.md 8. Ports (host events).) -/
def Obligations.HostEventsDoOnlyTheirPart : Prop :=
  ∀ s : State, Memory.wf s.cfg.fontBase s.mem = true → ∃ t, step s = .next t ∧
    (∀ addr data, s.pendingEvent = .load addr data →
      (s.runState = .stopped ∧ s.runDone = false ∧ 0x200 ≤ addr.toNat →
        t.byteAt addr.toNat = data ∧ ChangesOnly (fun p => p = .byte addr.toNat ∨ p = .events) s t) ∧
      (¬ (s.runState = .stopped ∧ s.runDone = false ∧ 0x200 ≤ addr.toNat) → ChangesOnly (· = .events) s t)) ∧
    (s.pendingEvent = .start →
      (s.runState = .stopped ∧ s.runDone = false →
        t.runState = .running ∧ ChangesOnly (fun p => p = .runState ∨ p = .events) s t) ∧
      (¬ (s.runState = .stopped ∧ s.runDone = false) → ChangesOnly (· = .events) s t)) ∧
    (s.pendingEvent = .stop → t.stopReq = true ∧ ChangesOnly (fun p => p = .stopReq ∨ p = .events) s t) ∧
    (s.pendingEvent = .pause →
      (s.runState = .running → t.runState = .paused ∧ ChangesOnly (fun p => p = .runState ∨ p = .events) s t) ∧
      (s.runState ≠ .running → ChangesOnly (· = .events) s t)) ∧
    (s.pendingEvent = .resume →
      (s.runState = .paused → t.runState = .running ∧ ChangesOnly (fun p => p = .runState ∨ p = .events) s t) ∧
      (s.runState ≠ .paused → ChangesOnly (· = .events) s t)) ∧
    (∀ k, s.pendingEvent = .keyChange k → t.key = k ∧ ChangesOnly (fun p => p = .key ∨ p = .events) s t) ∧
    (∀ b, s.pendingEvent = .rndChange b → t.rnd = b ∧ ChangesOnly (fun p => p = .rnd ∨ p = .events) s t)

/-- O43. When reset is the pending event, in every state of an allowed instance, the step answers a state with all
registers, I, SP, the stack, the timers and the control bits 0, PC 0x200, the font at FONT_BASE and 0 elsewhere in
memory, the framebuffer unlit, Stopped, fresh and with no fault; the input lines, the trace and the instance stay (log
1, 4, 10). The model's reset state holds the same values. (Derived from 10_state.md 9. Reset values,
70_reset_and_hazards.md 1. Reset.) -/
def Obligations.ResetGivesTheResetValues : Prop :=
  (∀ s : State, s.pendingEvent = .reset → s.cfg.wellFormed = true →
    ∃ t, step s = .next t ∧ HasResetValues t ∧ t.key = s.key ∧ t.rnd = s.rnd ∧ t.trace = s.trace ∧ t.cfg = s.cfg ∧
      t.events = s.events.tail) ∧
  HasResetValues State.reset

/-- O44. From every state of an allowed instance whose coming events are reset, the load strobes of a ROM of at most 3584
bytes, and start: after the reset the state holds the reset values, and after the remaining steps the ROM's bytes
stand at 0x200 upward, the engine is Running, and nothing else differs from the state after reset. (Derived from
70_reset_and_hazards.md 2. Boot.) -/
def Obligations.BootReachesTheLaunchState : Prop :=
  ∀ (s : State) (rom : List Byte), s.cfg.wellFormed = true → rom.length ≤ 3584 → s.events = bootEvents rom →
    ∃ u t, runSteps 1 s = some u ∧ HasResetValues u ∧ runSteps (rom.length + 2) s = some t ∧
      (∀ k b, rom[k]? = some b → t.byteAt (0x200 + k) = b) ∧ t.runState = .running ∧ t.events = [] ∧
      ChangesOnly (fun p => p = .runState ∨ p = .events ∨ ∃ k, k < rom.length ∧ p = .byte (0x200 + k)) u t

/-- O45. In a fresh state with canonical memory, Load of at most 3584 bytes sets the byte at 0x200 + k to the k-th byte
for every k and changes nothing else; a longer ROM is refused as RomTooLarge in every state. (Derived from
70_reset_and_hazards.md 2. Boot.) -/
def Obligations.OversizedRomIsRefusedWhole : Prop :=
  ∀ (rom : List Byte) (s : State),
    (3584 < rom.length → loadRom rom s = .error .romTooLarge) ∧
    (rom.length ≤ 3584 → s.fresh = true → Memory.wf s.cfg.fontBase s.mem = true →
      ∃ t, loadRom rom s = .ok t ∧ (∀ k b, rom[k]? = some b → t.byteAt (0x200 + k) = b) ∧
        ChangesOnly (fun p => ∃ k, k < rom.length ∧ p = .byte (0x200 + k)) s t)

/-- O46. For every clock without reset, the strobes that are high, load and input lines left aside, become events in the
order stop, pause, resume, start, tick, cycle, with one event each, and the other events are the changes of the input
lines and the load, if any; with reset no strobe becomes an event, the load included, but the reset. Two clauses are
no rule of the spec: that the input lines take new values as events, in a clock with reset too and there before the
reset, is the model's choice (DEDUCED, log 14); where the load strobe stands is free (DESIGN CHOICE, log 12). (Derived
from 10_state.md 8. Ports.) -/
def Obligations.HostStrobesApplyInOrder : Prop :=
  ∀ c : Clock,
    (c.rst = true → c.events = [.keyChange c.key, .rndChange c.rnd, .reset]) ∧
    (c.rst = false →
      c.events.filter (fun e => e ∈ [Event.stop, .pause, .resume, .start, .tick, .cycle]) =
        (if c.stop then [Event.stop] else []) ++ (if c.pause then [Event.pause] else []) ++
        (if c.resume then [Event.resume] else []) ++ (if c.start then [Event.start] else []) ++
        (if c.tick60 then [Event.tick] else []) ++ (if c.cycleEn then [Event.cycle] else []) ∧
      c.events.filter (fun e => e ∉ [Event.stop, .pause, .resume, .start, .tick, .cycle]) =
        [.keyChange c.key, .rndChange c.rnd] ++ c.load.toList.map (fun l => Event.load l.1 l.2))

/-- O47. run_state is 0, 1 or 2 for Stopped, Running, Paused; sound_on is high exactly when ST is above 0; dt and st are
the timers; a recorded fault shows its kind 1 to 4, its pc and opcode, and its address for kind 2 and 0 otherwise;
with no fault the kind is 0. The pixel in column x, row y is bit 64y + x of the frame. (Derived from 10_state.md 8.
Ports, 10_state.md 6. Engine control state.) -/
def Obligations.OutputsShowTheState : Prop :=
  (∀ s : State,
    (s.outputs.runState.toNat = match s.runState with | .stopped => 0 | .running => 1 | .paused => 2) ∧
    (s.outputs.soundOn = true ↔ 0 < s.st.toNat) ∧ s.outputs.dt = s.dt ∧ s.outputs.st = s.st ∧
    (s.fault = none → s.outputs.faultKind = 0) ∧
    ∀ f, s.fault = some f → s.outputs.faultPc = f.pc ∧ s.outputs.faultOpcode = f.opcode ∧
      match f.cause with
      | .invalidOpcode => s.outputs.faultKind = 1 ∧ s.outputs.faultAddr = 0
      | .addressOutOfRange a => s.outputs.faultKind = 2 ∧ s.outputs.faultAddr = a
      | .stackOverflow => s.outputs.faultKind = 3 ∧ s.outputs.faultAddr = 0
      | .stackUnderflow => s.outputs.faultKind = 4 ∧ s.outputs.faultAddr = 0) ∧
  ∀ (f : Frame) (x : Fin 64) (y : Fin 32), (frameBits f)[64 * y.val + x.val]? = some (pixelAt f x y)

/-- O48. For every instruction on every state of an unfinished run: whose stack is well sized: if it faults PC is
unchanged; otherwise PC is NNN after 1NNN and 2NNN (which has pushed PC + 2), NNN + V0 after BNNN, the popped entry
after 00EE, 4 or 2 further after the six skips as their condition holds or not, 2 further or unchanged after FX0A as a
key is down or not, and 2 further, modulo 65536, after every other. A cycle that finds no instruction at PC leaves PC
unchanged. (States R24.) -/
def Obligations.ProgramCounterAfterEachInstruction : Prop :=
  (∀ (i : Instr) (s t : State), s.runDone = false → s.stack.length = s.cfg.stackCapacity →
    s.sp ≤ s.cfg.stackCapacity → exec i s = .next t →
    (t.runDone = true → t.pc = s.pc) ∧
    (t.runDone = false →
      match i with
      | .jp nnn => t.pc.toNat = nnn.toNat
      | .call nnn => t.pc.toNat = nnn.toNat ∧ t.stack[s.sp]? = some (s.pc + 2)
      | .jpV0 nnn => t.pc.toNat = nnn.toNat + (s.reg 0).toNat
      | .ret => s.stack[s.sp - 1]? = some t.pc
      | .seImm x nn => t.pc = if s.reg x = nn then s.pc + 4 else s.pc + 2
      | .sneImm x nn => t.pc = if s.reg x = nn then s.pc + 2 else s.pc + 4
      | .seReg x y => t.pc = if s.reg x = s.reg y then s.pc + 4 else s.pc + 2
      | .sneReg x y => t.pc = if s.reg x = s.reg y then s.pc + 2 else s.pc + 4
      | .skp x => t.pc = if s.key.getLsbD ((s.reg x).toNat % 16) = true then s.pc + 4 else s.pc + 2
      | .sknp x => t.pc = if s.key.getLsbD ((s.reg x).toNat % 16) = true then s.pc + 2 else s.pc + 4
      | .ldVxK _ => t.pc = if s.key = 0 then s.pc else s.pc + 2
      | _ => t.pc = s.pc + 2)) ∧
  ∀ s : State, s.Ready → (∀ i, ¬ s.At i) → ∃ t, step s = .next t ∧ t.pc = s.pc

/-- O49. In every step in which a general register changes, the step is a reset, or it runs an instruction that the spec
lists as writing that register: VX for the load, ALU, random, timer-read and key instructions, VF for the five flag-
writing ALU instructions and DXYN, V0 to VX for FX65. (Derived from 10_state.md 1. General registers, 10_state.md 3.
Flags.) -/
def Obligations.RegistersAreWrittenOnlyAsListed : Prop :=
  ∀ (s t : State) (r : Reg), step s = .next t → t.reg r ≠ s.reg r →
    s.pendingEvent = .reset ∨ ∃ i, s.Ready ∧ s.At i ∧ i.writes r

/-- O50. For every instruction and every register that the spec does not list as read by it, executing the instruction
with another value in that register gives a state that agrees in every part but, at most, that register. (Derived from
10_state.md 1. General registers.) -/
def Obligations.RegistersAreReadOnlyAsListed : Prop :=
  ∀ (i : Instr) (s t t' : State) (r : Reg) (b : Byte), ¬ i.reads r →
    exec i s = .next t → exec i (s.setReg r b) = .next t' → ∀ p : Part, p ≠ .reg r → p.same t t'

/-- O51. For every other instruction, executing it under other levels of the key lines, or another random byte, gives the
same state but for that input. (Derived from 10_state.md 7. Framebuffer and inputs.) -/
def Obligations.InputsAreSampledOnlyAsListed : Prop :=
  ∀ (i : Instr) (s t : State), exec i s = .next t →
    (¬ i.samplesKeys → ∀ k, exec i { s with key := k } = .next { t with key := k }) ∧
    (¬ i.samplesRandom → ∀ b, exec i { s with rnd := b } = .next { t with rnd := b })

/-- O52. In every step in which some pixel changes, the step is a reset or runs 00E0 or DXYN. (Derived from 10_state.md 7.
Framebuffer and inputs.) -/
def Obligations.FramebufferChangesOnlyByDrawing : Prop :=
  ∀ (s t : State) (x : Fin 64) (y : Fin 32), step s = .next t → ¬ (t.Lit x y ↔ s.Lit x y) →
    s.pendingEvent = .reset ∨ ∃ i, s.Ready ∧ s.At i ∧ i.draws

/-- O53. In every step in which a byte of memory changes, the address is below 4096 and the step is a reset, a load of
that very address from 0x200 up in the fresh state, or runs FX33 with the address in I to I+2, or FX55 with the
address in I to I+X. (Derived from 10_state.md 5. Memory and font, 20_memory.md 3. Widths.) -/
def Obligations.MemoryChangesOnlyByStores : Prop :=
  ∀ (s t : State) (a : Nat), Memory.wf s.cfg.fontBase s.mem = true → s.cfg.wellFormed = true →
    step s = .next t → t.byteAt a ≠ s.byteAt a →
    a < 4096 ∧
    (s.pendingEvent = .reset ∨
     (∃ addr data, s.pendingEvent = .load addr data ∧ addr.toNat = a ∧ 0x200 ≤ a ∧ s.fresh = true) ∨
     (∃ x, s.Ready ∧ s.At (.ldB x) ∧ s.index.toNat ≤ a ∧ a ≤ s.index.toNat + 2) ∨
     (∃ x : Reg, s.Ready ∧ s.At (.storeRegs x) ∧ s.index.toNat ≤ a ∧ a ≤ s.index.toNat + x.val))

/-- O54. In every step that is not a reset: I changes only in ANNN, FX1E or FX29; SP only in 2NNN or 00EE; a stack entry
only in 2NNN, and only the entry at SP; DT only in FX15 or a tick; ST only in FX18 or a tick. (Derived from
10_state.md 4. Index register, stack, timers, 60_exceptions.md 5. Timers.) -/
def Obligations.SpecialRegistersChangeOnlyByTheirWriters : Prop :=
  ∀ s t : State, step s = .next t → s.pendingEvent ≠ .reset →
    (t.index ≠ s.index → s.Ready ∧ ∃ i, s.At i ∧ ((∃ nnn, i = .ldI nnn) ∨ (∃ x, i = .addI x) ∨ ∃ x, i = .ldF x)) ∧
    (t.sp ≠ s.sp → s.Ready ∧ ∃ i, s.At i ∧ ((∃ nnn, i = .call nnn) ∨ i = .ret)) ∧
    (∀ k, t.stack[k]? ≠ s.stack[k]? → k = s.sp ∧ s.Ready ∧ ∃ nnn, s.At (.call nnn)) ∧
    (t.dt ≠ s.dt → s.pendingEvent = .tick ∨ (s.Ready ∧ ∃ x, s.At (.ldDtVx x))) ∧
    (t.st ≠ s.st → s.pendingEvent = .tick ∨ (s.Ready ∧ ∃ x, s.At (.ldStVx x)))

/-- O55. No state, event or instruction makes the model stop: each violation a program can commit is a fault of the spec,
which is entered and answers a next state. That the host interface's fault and refusal never occur is the model's own
choice of form (log 5). (Derived from 70_reset_and_hazards.md 3. Hazards, 60_exceptions.md 1. Synchronous faults.) -/
def Obligations.StepAlwaysGoesOn : Prop :=
  (∀ s : State, ∃ t, step s = .next t) ∧ ∀ (i : Instr) (s : State), ∃ t, exec i s = .next t

/-- O56. The frames of these statements speak of the parts of the state; two states whose memories are in canonical form
and that agree in every part are the same state, so a frame leaves nothing out. (Derived from 10_state.md (all
state).) -/
def Obligations.PartsDetermineTheState : Prop :=
  ∀ s t : State, Memory.wf s.cfg.fontBase s.mem = true → Memory.wf t.cfg.fontBase t.mem = true →
    (∀ p : Part, p.same s t) → s = t

/-- O57. From every state that meets the invariant, in every allowed instance and for every list of coming events, a step
that answers a next state gives one that meets it: SP within capacity and the stack of that size, return addresses at
most 0x1000, PC at most 0x10FE, memory canonical and within 4096 bytes, dirty clear, a finished run Stopped, and a
recorded fault final, at the PC it records and with an address that does not exist. (Derived from 10_state.md,
60_exceptions.md 3. Fault entry, 41_control_flow.md, 20_memory.md.) -/
def Obligations.EveryStepKeepsTheInvariant : Prop :=
  ∀ s t : State, s.Inv → step s = .next t → t.Inv

/-- O58. The state after reset meets the invariant in every instance the spec allows, the default one included. (Derived
from 10_state.md 9. Reset values.) -/
def Obligations.InvariantHoldsAtReset : Prop :=
  (∀ c : Config, c.wellFormed = true → (State.resetOf c).Inv) ∧ State.reset.Inv

/-- O59. Take two states that differ only in stack entries at index SP and above. Every step from the first that answers a
next state is matched by a step from the second, and the two states reached again differ only in stack entries at
index SP and above: such entries are never read before a push rewrites them. (Derived from 10_state.md 4. Index
register, stack, timers.) -/
def Obligations.StaleStackEntriesAreUnobservable : Prop :=
  ∀ s s' t : State, s' = { s with stack := s'.stack } → s'.stack.length = s.stack.length →
    (∀ k, k < s.sp → s'.stack[k]? = s.stack[k]?) → step s = .next t →
    ∃ t', step s' = .next t' ∧ t' = { t with stack := t'.stack } ∧ t'.stack.length = t.stack.length ∧
      ∀ k, k < t.sp → t'.stack[k]? = t.stack[k]?
end

