-- ==== Sys2Proof/Laws/Display.lean ====
section
/-!
SUPPORT. What drawing a sprite does to each pixel, and when it collides (44_display.md R151): no pixel is met twice.
-/

namespace Sys2Proof.Machine

/-- The pixel `(x, y)` of the screen is met by the sprite point `(px, py)` before wrapping. -/
def meets (px py x y : Nat) : Bool := decide (px % 64 = x % 64) && decide (py % 32 = y % 32)

theorem pixelAt_congr (f : Frame) {px py x y : Nat} (h : meets px py x y = true) : pixelAt f px py = pixelAt f x y := by
  simp only [meets, Bool.and_eq_true, decide_eq_true_eq] at h
  unfold pixelAt
  simp only [h.1, h.2]

theorem pixelAt_togglePixel (f : Frame) (px py x y : Nat) :
    pixelAt (togglePixel f px py) x y = (pixelAt f x y ^^ meets px py x y) := by
  unfold pixelAt togglePixel meets
  rw [Vector.getElem_set]
  by_cases hy : py % 32 = y % 32
  · rw [if_pos hy]
    simp [hy, BitVec.getLsbD_twoPow]
    exact fun _ => Nat.mod_lt _ (by decide)
  · rw [if_neg hy]; simp [hy]

theorem pixelAt_drawPixel (acc : Frame × Bool) (px py : Nat) (bit : Bool) (x y : Nat) :
    pixelAt (drawPixel acc px py bit).1 x y = (pixelAt acc.1 x y ^^ (bit && meets px py x y)) := by
  unfold drawPixel
  cases bit <;> simp [pixelAt_togglePixel]

theorem collision_drawPixel (acc : Frame × Bool) (px py : Nat) (bit : Bool) :
    (drawPixel acc px py bit).2 = (acc.2 || (bit && pixelAt acc.1 px py)) := by
  unfold drawPixel
  cases bit <;> simp

/-! ### A sprite as its list of points -/

/-- A point of a sprite: column, row, and the sprite bit there. -/
abbrev Point := Nat × Nat × Bool

/-- The points of one sprite row. -/
def rowPoints (vx y : Nat) (b : Byte) : List Point := (List.range 8).map (fun c => (vx + c, y, b.getLsbD (7 - c)))

/-- The points of a sprite, row after row. -/
def spritePoints (vx vy : Nat) : List Byte → List Point
  | [] => []
  | b :: rest => rowPoints vx vy b ++ spritePoints vx (vy + 1) rest

/-- Draw one point. -/
def drawPoint (acc : Frame × Bool) (p : Point) : Frame × Bool := drawPixel acc p.1 p.2.1 p.2.2

theorem drawRows_eq_foldl (acc : Frame × Bool) (vx vy : Nat) (bs : List Byte) :
    drawRows acc vx vy bs = (spritePoints vx vy bs).foldl drawPoint acc := by
  induction bs generalizing acc vy with
  | nil => rfl
  | cons b rest ih =>
    rw [drawRows, ih, spritePoints, List.foldl_append]
    rw [rowPoints, List.foldl_map]
    rfl

/-- Two points that no pixel meets both. -/
def Apart (p q : Point) : Prop := p.1 % 64 ≠ q.1 % 64 ∨ p.2.1 % 32 ≠ q.2.1 % 32

theorem spritePoints_mem {vx vy : Nat} {bs : List Byte} {p : Point} :
    p ∈ spritePoints vx vy bs ↔
      ∃ r c, ∃ _ : r < bs.length, c < 8 ∧ p = (vx + c, vy + r, bs[r].getLsbD (7 - c)) := by
  induction bs generalizing vy with
  | nil => simp [spritePoints]
  | cons b rest ih =>
    simp only [spritePoints, List.mem_append, ih, rowPoints, List.mem_map, List.mem_range]
    constructor
    · rintro (⟨c, hc, rfl⟩ | ⟨r, c, hr, hc, rfl⟩)
      · exact ⟨0, c, by simp, hc, rfl⟩
      · exact ⟨r + 1, c, by simpa using hr, hc, by simp; omega⟩
    · rintro ⟨r, c, hr, hc, rfl⟩
      cases r with
      | zero => exact .inl ⟨c, hc, rfl⟩
      | succ r => exact .inr ⟨r, c, by simpa using hr, hc, by simp; omega⟩

/-- A sprite of at most 32 rows never meets the same pixel twice. -/
theorem spritePoints_apart (vx vy : Nat) (bs : List Byte) (h : bs.length ≤ 32) :
    (spritePoints vx vy bs).Pairwise Apart := by
  induction bs generalizing vy with
  | nil => exact .nil
  | cons b rest ih =>
    rw [List.length_cons] at h
    rw [spritePoints, List.pairwise_append]
    refine ⟨?_, ih (vy + 1) (by omega), ?_⟩
    · rw [rowPoints, List.pairwise_map]
      refine List.pairwise_lt_range.imp_of_mem fun {a b} ha hb hab => .inl ?_
      rw [List.mem_range] at ha hb
      show (vx + a) % 64 ≠ (vx + b) % 64
      omega
    · intro p hp q hq
      simp only [rowPoints, List.mem_map, List.mem_range] at hp
      obtain ⟨c, hc, rfl⟩ := hp
      obtain ⟨r, c', hr, hc', rfl⟩ := spritePoints_mem.1 hq
      refine .inr ?_
      show vy % 32 ≠ (vy + 1 + r) % 32
      omega

/-- Some set bit of the points meets the pixel. -/
def covers (ps : List Point) (x y : Nat) : Bool := ps.any (fun p => p.2.2 && meets p.1 p.2.1 x y)

theorem covers_false_of_apart {p : Point} {ps : List Point} (h : ∀ q ∈ ps, Apart p q) {x y : Nat}
    (hm : meets p.1 p.2.1 x y = true) : covers ps x y = false := by
  simp only [meets, Bool.and_eq_true, decide_eq_true_eq] at hm
  simp only [covers, List.any_eq_false, meets, Bool.and_eq_true, decide_eq_true_eq, not_and]
  intro q hq _ h1 h2
  rcases h q hq with h3 | h3 <;> omega

/-- Each pixel after a draw: toggled exactly when a set sprite bit meets it. -/
theorem pixelAt_foldl_drawPoint (ps : List Point) (acc : Frame × Bool) (h : ps.Pairwise Apart) (x y : Nat) :
    pixelAt (ps.foldl drawPoint acc).1 x y = (pixelAt acc.1 x y ^^ covers ps x y) := by
  induction ps generalizing acc with
  | nil => simp [covers]
  | cons p ps ih =>
    rw [List.pairwise_cons] at h
    rw [List.foldl_cons, ih _ h.2, drawPoint, pixelAt_drawPixel]
    cases hm : meets p.1 p.2.1 x y
    · simp [covers, hm]
    · have h0 := covers_false_of_apart h.1 hm
      have h1 : covers (p :: ps) x y = (p.2.2 && true || covers ps x y) := by simp [covers, hm]
      rw [h1, h0]; simp

theorem any_eq_of_mem {α : Type} {l : List α} {f g : α → Bool} (h : ∀ a ∈ l, f a = g a) : l.any f = l.any g := by
  induction l with
  | nil => rfl
  | cons a l ih => simp [h a (by simp), ih fun b hb => h b (by simp [hb])]

/-- The collision of a draw: some set sprite bit meets a pixel that was lit before it. -/
theorem collision_foldl_drawPoint (ps : List Point) (acc : Frame × Bool) (h : ps.Pairwise Apart) :
    (ps.foldl drawPoint acc).2 = (acc.2 || ps.any (fun p => p.2.2 && pixelAt acc.1 p.1 p.2.1)) := by
  induction ps generalizing acc with
  | nil => simp
  | cons p ps ih =>
    rw [List.pairwise_cons] at h
    rw [List.foldl_cons, ih _ h.2, drawPoint, collision_drawPixel, List.any_cons, Bool.or_assoc]
    congr 2
    refine any_eq_of_mem fun q hq => ?_
    rw [pixelAt_drawPixel]
    have : meets p.1 p.2.1 q.1 q.2.1 = false := by
      have ha := h.1 q hq
      unfold Apart at ha
      simp only [meets, Bool.and_eq_false_iff, decide_eq_false_iff_not]
      exact ha
    rw [this, Bool.and_false, Bool.xor_false]

end Sys2Proof.Machine
end

