-- ==== Sys2Proof/Laws/Encoding.lean ====
section
/-!
SUPPORT. Fields of packed words, and what each mask of the opcode table compares.
-/

namespace Sys2Proof

/-! ### Fields of packed words -/

@[simp] theorem regBits_toFin (r : Reg) : (regBits r).toFin = r := rfl

@[simp] theorem fieldOp_packNibbles (a b c d : BitVec 4) : fieldOp (packNibbles a b c d) = a := by
  unfold fieldOp packNibbles; ext i hi; interval_cases i <;> simp

@[simp] theorem fieldX_packNibbles (a c d : BitVec 4) (x : Reg) : fieldX (packNibbles a (regBits x) c d) = x := by
  have : (packNibbles a (regBits x) c d).extractLsb' 8 4 = regBits x := by
    unfold packNibbles; ext i hi; interval_cases i <;> simp
  rw [fieldX, this]; rfl

@[simp] theorem fieldY_packNibbles (a b d : BitVec 4) (y : Reg) : fieldY (packNibbles a b (regBits y) d) = y := by
  have : (packNibbles a b (regBits y) d).extractLsb' 4 4 = regBits y := by
    unfold packNibbles; ext i hi; interval_cases i <;> simp
  rw [fieldY, this]; rfl

@[simp] theorem fieldN_packNibbles (a b c d : BitVec 4) : fieldN (packNibbles a b c d) = d.toNat := by
  have : (packNibbles a b c d).extractLsb' 0 4 = d := by
    unfold packNibbles; ext i hi; interval_cases i <;> simp
  rw [fieldN, this]

@[simp] theorem fieldOp_packXI (op : BitVec 4) (x : Reg) (nn : Byte) : fieldOp (packXI op x nn) = op := by
  unfold fieldOp packXI; ext i hi; interval_cases i <;> simp

@[simp] theorem fieldX_packXI (op : BitVec 4) (x : Reg) (nn : Byte) : fieldX (packXI op x nn) = x := by
  have : (packXI op x nn).extractLsb' 8 4 = regBits x := by
    unfold packXI; ext i hi; interval_cases i <;> simp
  rw [fieldX, this]; rfl

@[simp] theorem fieldNN_packXI (op : BitVec 4) (x : Reg) (nn : Byte) : fieldNN (packXI op x nn) = nn := by
  unfold fieldNN packXI; ext i hi; interval_cases i <;> simp

@[simp] theorem fieldOp_packA (op : BitVec 4) (nnn : BitVec 12) : fieldOp (packA op nnn) = op := by
  unfold fieldOp packA; ext i hi; interval_cases i <;> simp

@[simp] theorem fieldNNN_packA (op : BitVec 4) (nnn : BitVec 12) : fieldNNN (packA op nnn) = nnn := by
  unfold fieldNNN packA; ext i hi; interval_cases i <;> simp

@[simp] theorem fieldNN_packNibbles (a b c d : BitVec 4) :
    fieldNN (packNibbles a b c d) = c.setWidth 8 <<< 4 ||| d.setWidth 8 := by
  unfold fieldNN packNibbles; ext i hi; interval_cases i <;> simp

/-! ### A word is its fields -/

theorem packNibbles_fields (w : Word) :
    packNibbles (fieldOp w) (regBits (fieldX w)) (regBits (fieldY w)) (BitVec.ofNat 4 (fieldN w)) = w := by
  have hx : regBits (fieldX w) = w.extractLsb' 8 4 := rfl
  have hy : regBits (fieldY w) = w.extractLsb' 4 4 := rfl
  have hn : BitVec.ofNat 4 (fieldN w) = w.extractLsb' 0 4 := by rw [fieldN, BitVec.ofNat_toNat, BitVec.setWidth_eq]
  rw [hx, hy, hn]
  unfold packNibbles fieldOp; ext i hi; interval_cases i <;> simp

theorem packXI_fields (w : Word) : packXI (fieldOp w) (fieldX w) (fieldNN w) = w := by
  have hx : regBits (fieldX w) = w.extractLsb' 8 4 := rfl
  unfold packXI fieldOp fieldNN; rw [hx]; ext i hi; interval_cases i <;> simp

theorem packA_fields (w : Word) : packA (fieldOp w) (fieldNNN w) = w := by
  unfold packA fieldOp fieldNNN; ext i hi; interval_cases i <;> simp

/-! ### Numbers (R6) -/

theorem toNat_fields (w : Word) :
    w.toNat = 4096 * (fieldOp w).toNat + 256 * (fieldX w).val + 16 * (fieldY w).val + fieldN w := by
  have hx : (fieldX w).val = (w.extractLsb' 8 4).toNat := rfl
  have hy : (fieldY w).val = (w.extractLsb' 4 4).toNat := rfl
  have hw := w.isLt
  rw [hx, hy]
  simp only [fieldOp, fieldN, BitVec.extractLsb'_toNat, Nat.shiftRight_eq_div_pow]
  omega

theorem toNat_fieldNN (w : Word) : (fieldNN w).toNat = 16 * (fieldY w).val + fieldN w := by
  have hy : (fieldY w).val = (w.extractLsb' 4 4).toNat := rfl
  rw [hy]
  simp only [fieldNN, fieldN, BitVec.extractLsb'_toNat, Nat.shiftRight_eq_div_pow]
  omega

theorem toNat_fieldNNN (w : Word) :
    (fieldNNN w).toNat = 256 * (fieldX w).val + 16 * (fieldY w).val + fieldN w := by
  have hx : (fieldX w).val = (w.extractLsb' 8 4).toNat := rfl
  have hy : (fieldY w).val = (w.extractLsb' 4 4).toNat := rfl
  rw [hx, hy]
  simp only [fieldNNN, fieldN, BitVec.extractLsb'_toNat, Nat.shiftRight_eq_div_pow]
  omega

theorem toNat_packNibbles (a d : BitVec 4) (x y : Reg) :
    (packNibbles a (regBits x) (regBits y) d).toNat = 4096 * a.toNat + 256 * x.val + 16 * y.val + d.toNat := by
  rw [toNat_fields]; simp

theorem toNat_packXI (op : BitVec 4) (x : Reg) (nn : Byte) :
    (packXI op x nn).toNat = 4096 * op.toNat + 256 * x.val + nn.toNat := by
  have h := toNat_fieldNN (packXI op x nn)
  rw [fieldNN_packXI] at h
  rw [toNat_fields, h]; simp [Nat.add_assoc]

theorem toNat_packA (op : BitVec 4) (nnn : BitVec 12) : (packA op nnn).toNat = 4096 * op.toNat + nnn.toNat := by
  have h := toNat_fieldNNN (packA op nnn)
  rw [fieldNNN_packA] at h
  rw [toNat_fields, h]; simp [Nat.add_assoc]

/-- Two bytes split off a word make the word again (R50). -/
@[simp] theorem wordOfBytes_split (w : Word) : wordOfBytes (highByte w) (lowByte w) = w := by
  unfold wordOfBytes highByte lowByte; ext i hi; interval_cases i <;> simp

/-! ### What the masks compare (R75, R76) -/

theorem and_F000 (w m : Word) : w &&& 0xF000 = m &&& 0xF000 ↔ fieldOp w = fieldOp m := by
  unfold fieldOp
  constructor
  · intro h; ext i hi
    have hb := congrArg (·.getLsbD (12 + i)) h
    interval_cases i <;> simpa using hb
  · intro h; ext i hi
    have hb := congrArg (·.getLsbD (i - 12)) h
    clear h
    interval_cases i <;> simp_all

theorem and_F00F (w m : Word) :
    w &&& 0xF00F = m &&& 0xF00F ↔ fieldOp w = fieldOp m ∧ fieldN w = fieldN m := by
  unfold fieldOp fieldN; rw [← BitVec.toNat_eq]
  constructor
  · intro h
    refine ⟨?_, ?_⟩ <;> ext i hi
    · have hb := congrArg (·.getLsbD (12 + i)) h
      interval_cases i <;> simpa using hb
    · have hb := congrArg (·.getLsbD i) h
      interval_cases i <;> simpa using hb
  · rintro ⟨h, h'⟩; ext i hi
    have hb := congrArg (·.getLsbD (i - 12)) h
    have hb' := congrArg (·.getLsbD i) h'
    clear h h'
    interval_cases i <;> simp_all

theorem and_F0FF (w m : Word) :
    w &&& 0xF0FF = m &&& 0xF0FF ↔ fieldOp w = fieldOp m ∧ fieldNN w = fieldNN m := by
  unfold fieldOp fieldNN
  constructor
  · intro h
    refine ⟨?_, ?_⟩ <;> ext i hi
    · have hb := congrArg (·.getLsbD (12 + i)) h
      interval_cases i <;> simpa using hb
    · have hb := congrArg (·.getLsbD i) h
      interval_cases i <;> simpa using hb
  · rintro ⟨h, h'⟩; ext i hi
    have hb := congrArg (·.getLsbD (i - 12)) h
    have hb' := congrArg (·.getLsbD i) h'
    clear h h'
    interval_cases i <;> simp_all

theorem and_FFFF (w m : Word) : w &&& 0xFFFF = m ↔ w = m := by
  have : w &&& 0xFFFF = w := by ext i hi; interval_cases i <;> simp
  rw [this]

/-! ### When a row of the table is hit -/

section Hits
variable {code w : Word} {build : Word → Instr}

theorem hits_op (hm : code &&& 0xF000 = code) (hop : fieldOp w = fieldOp code) :
    OpcodeRow.hits ⟨code, 0xF000, build⟩ w = true := by
  have := (and_F000 w code).2 hop
  rw [hm] at this
  exact decide_eq_true this

theorem hits_op_n (hm : code &&& 0xF00F = code) (hop : fieldOp w = fieldOp code) (hn : fieldN w = fieldN code) :
    OpcodeRow.hits ⟨code, 0xF00F, build⟩ w = true := by
  have := (and_F00F w code).2 ⟨hop, hn⟩
  rw [hm] at this
  exact decide_eq_true this

theorem hits_op_nn (hm : code &&& 0xF0FF = code) (hop : fieldOp w = fieldOp code) (hn : fieldNN w = fieldNN code) :
    OpcodeRow.hits ⟨code, 0xF0FF, build⟩ w = true := by
  have := (and_F0FF w code).2 ⟨hop, hn⟩
  rw [hm] at this
  exact decide_eq_true this

theorem op_of_hits (hm : code &&& 0xF000 = code) (h : OpcodeRow.hits ⟨code, 0xF000, build⟩ w = true) :
    fieldOp w = fieldOp code := by
  have := of_decide_eq_true h
  exact (and_F000 w code).1 (by rw [hm]; exact this)

theorem op_n_of_hits (hm : code &&& 0xF00F = code) (h : OpcodeRow.hits ⟨code, 0xF00F, build⟩ w = true) :
    fieldOp w = fieldOp code ∧ fieldN w = fieldN code := by
  have := of_decide_eq_true h
  exact (and_F00F w code).1 (by rw [hm]; exact this)

theorem op_nn_of_hits (hm : code &&& 0xF0FF = code) (h : OpcodeRow.hits ⟨code, 0xF0FF, build⟩ w = true) :
    fieldOp w = fieldOp code ∧ fieldNN w = fieldNN code := by
  have := of_decide_eq_true h
  exact (and_F0FF w code).1 (by rw [hm]; exact this)

theorem word_of_hits (h : OpcodeRow.hits ⟨code, 0xFFFF, build⟩ w = true) : w = code :=
  (and_FFFF w code).1 (of_decide_eq_true h)

end Hits

end Sys2Proof
end

