-- ==== Sys2Proof/Laws/State.lean ====
section
/-!
SUPPORT. One lemma per field for each update of the state, so that no proof unfolds a record update.
-/

namespace Sys2Proof.Machine

/-! ### `setReg` -/

@[simp] theorem State.setReg_v (s : State) (r : Reg) (b : Byte) : (s.setReg r b).v = s.v.set r.val b r.isLt := rfl
@[simp] theorem State.setReg_pc (s : State) (r : Reg) (b : Byte) : (s.setReg r b).pc = s.pc := rfl
@[simp] theorem State.setReg_index (s : State) (r : Reg) (b : Byte) : (s.setReg r b).index = s.index := rfl
@[simp] theorem State.setReg_sp (s : State) (r : Reg) (b : Byte) : (s.setReg r b).sp = s.sp := rfl
@[simp] theorem State.setReg_stack (s : State) (r : Reg) (b : Byte) : (s.setReg r b).stack = s.stack := rfl
@[simp] theorem State.setReg_dt (s : State) (r : Reg) (b : Byte) : (s.setReg r b).dt = s.dt := rfl
@[simp] theorem State.setReg_st (s : State) (r : Reg) (b : Byte) : (s.setReg r b).st = s.st := rfl
@[simp] theorem State.setReg_mem (s : State) (r : Reg) (b : Byte) : (s.setReg r b).mem = s.mem := rfl
@[simp] theorem State.setReg_fb (s : State) (r : Reg) (b : Byte) : (s.setReg r b).fb = s.fb := rfl
@[simp] theorem State.setReg_dirty (s : State) (r : Reg) (b : Byte) : (s.setReg r b).dirty = s.dirty := rfl
@[simp] theorem State.setReg_runState (s : State) (r : Reg) (b : Byte) : (s.setReg r b).runState = s.runState := rfl
@[simp] theorem State.setReg_stopReq (s : State) (r : Reg) (b : Byte) : (s.setReg r b).stopReq = s.stopReq := rfl
@[simp] theorem State.setReg_runDone (s : State) (r : Reg) (b : Byte) : (s.setReg r b).runDone = s.runDone := rfl
@[simp] theorem State.setReg_fault (s : State) (r : Reg) (b : Byte) : (s.setReg r b).fault = s.fault := rfl
@[simp] theorem State.setReg_key (s : State) (r : Reg) (b : Byte) : (s.setReg r b).key = s.key := rfl
@[simp] theorem State.setReg_rnd (s : State) (r : Reg) (b : Byte) : (s.setReg r b).rnd = s.rnd := rfl
@[simp] theorem State.setReg_cfg (s : State) (r : Reg) (b : Byte) : (s.setReg r b).cfg = s.cfg := rfl
@[simp] theorem State.setReg_events (s : State) (r : Reg) (b : Byte) : (s.setReg r b).events = s.events := rfl
@[simp] theorem State.setReg_trace (s : State) (r : Reg) (b : Byte) : (s.setReg r b).trace = s.trace := rfl

/-! ### `setPc` -/

@[simp] theorem State.setPc_v (s : State) (a : Word) : (s.setPc a).v = s.v := rfl
@[simp] theorem State.setPc_pc (s : State) (a : Word) : (s.setPc a).pc = a := rfl
@[simp] theorem State.setPc_index (s : State) (a : Word) : (s.setPc a).index = s.index := rfl
@[simp] theorem State.setPc_sp (s : State) (a : Word) : (s.setPc a).sp = s.sp := rfl
@[simp] theorem State.setPc_stack (s : State) (a : Word) : (s.setPc a).stack = s.stack := rfl
@[simp] theorem State.setPc_dt (s : State) (a : Word) : (s.setPc a).dt = s.dt := rfl
@[simp] theorem State.setPc_st (s : State) (a : Word) : (s.setPc a).st = s.st := rfl
@[simp] theorem State.setPc_mem (s : State) (a : Word) : (s.setPc a).mem = s.mem := rfl
@[simp] theorem State.setPc_fb (s : State) (a : Word) : (s.setPc a).fb = s.fb := rfl
@[simp] theorem State.setPc_dirty (s : State) (a : Word) : (s.setPc a).dirty = s.dirty := rfl
@[simp] theorem State.setPc_runState (s : State) (a : Word) : (s.setPc a).runState = s.runState := rfl
@[simp] theorem State.setPc_stopReq (s : State) (a : Word) : (s.setPc a).stopReq = s.stopReq := rfl
@[simp] theorem State.setPc_runDone (s : State) (a : Word) : (s.setPc a).runDone = s.runDone := rfl
@[simp] theorem State.setPc_fault (s : State) (a : Word) : (s.setPc a).fault = s.fault := rfl
@[simp] theorem State.setPc_key (s : State) (a : Word) : (s.setPc a).key = s.key := rfl
@[simp] theorem State.setPc_rnd (s : State) (a : Word) : (s.setPc a).rnd = s.rnd := rfl
@[simp] theorem State.setPc_cfg (s : State) (a : Word) : (s.setPc a).cfg = s.cfg := rfl
@[simp] theorem State.setPc_events (s : State) (a : Word) : (s.setPc a).events = s.events := rfl
@[simp] theorem State.setPc_trace (s : State) (a : Word) : (s.setPc a).trace = s.trace := rfl

/-! ### `setIndex` -/

@[simp] theorem State.setIndex_v (s : State) (a : Word) : (s.setIndex a).v = s.v := rfl
@[simp] theorem State.setIndex_pc (s : State) (a : Word) : (s.setIndex a).pc = s.pc := rfl
@[simp] theorem State.setIndex_index (s : State) (a : Word) : (s.setIndex a).index = a := rfl
@[simp] theorem State.setIndex_sp (s : State) (a : Word) : (s.setIndex a).sp = s.sp := rfl
@[simp] theorem State.setIndex_stack (s : State) (a : Word) : (s.setIndex a).stack = s.stack := rfl
@[simp] theorem State.setIndex_dt (s : State) (a : Word) : (s.setIndex a).dt = s.dt := rfl
@[simp] theorem State.setIndex_st (s : State) (a : Word) : (s.setIndex a).st = s.st := rfl
@[simp] theorem State.setIndex_mem (s : State) (a : Word) : (s.setIndex a).mem = s.mem := rfl
@[simp] theorem State.setIndex_fb (s : State) (a : Word) : (s.setIndex a).fb = s.fb := rfl
@[simp] theorem State.setIndex_dirty (s : State) (a : Word) : (s.setIndex a).dirty = s.dirty := rfl
@[simp] theorem State.setIndex_runState (s : State) (a : Word) : (s.setIndex a).runState = s.runState := rfl
@[simp] theorem State.setIndex_stopReq (s : State) (a : Word) : (s.setIndex a).stopReq = s.stopReq := rfl
@[simp] theorem State.setIndex_runDone (s : State) (a : Word) : (s.setIndex a).runDone = s.runDone := rfl
@[simp] theorem State.setIndex_fault (s : State) (a : Word) : (s.setIndex a).fault = s.fault := rfl
@[simp] theorem State.setIndex_key (s : State) (a : Word) : (s.setIndex a).key = s.key := rfl
@[simp] theorem State.setIndex_rnd (s : State) (a : Word) : (s.setIndex a).rnd = s.rnd := rfl
@[simp] theorem State.setIndex_cfg (s : State) (a : Word) : (s.setIndex a).cfg = s.cfg := rfl
@[simp] theorem State.setIndex_events (s : State) (a : Word) : (s.setIndex a).events = s.events := rfl
@[simp] theorem State.setIndex_trace (s : State) (a : Word) : (s.setIndex a).trace = s.trace := rfl

/-! ### `setDt` -/

@[simp] theorem State.setDt_v (s : State) (b : Byte) : (s.setDt b).v = s.v := rfl
@[simp] theorem State.setDt_pc (s : State) (b : Byte) : (s.setDt b).pc = s.pc := rfl
@[simp] theorem State.setDt_index (s : State) (b : Byte) : (s.setDt b).index = s.index := rfl
@[simp] theorem State.setDt_sp (s : State) (b : Byte) : (s.setDt b).sp = s.sp := rfl
@[simp] theorem State.setDt_stack (s : State) (b : Byte) : (s.setDt b).stack = s.stack := rfl
@[simp] theorem State.setDt_dt (s : State) (b : Byte) : (s.setDt b).dt = b := rfl
@[simp] theorem State.setDt_st (s : State) (b : Byte) : (s.setDt b).st = s.st := rfl
@[simp] theorem State.setDt_mem (s : State) (b : Byte) : (s.setDt b).mem = s.mem := rfl
@[simp] theorem State.setDt_fb (s : State) (b : Byte) : (s.setDt b).fb = s.fb := rfl
@[simp] theorem State.setDt_dirty (s : State) (b : Byte) : (s.setDt b).dirty = s.dirty := rfl
@[simp] theorem State.setDt_runState (s : State) (b : Byte) : (s.setDt b).runState = s.runState := rfl
@[simp] theorem State.setDt_stopReq (s : State) (b : Byte) : (s.setDt b).stopReq = s.stopReq := rfl
@[simp] theorem State.setDt_runDone (s : State) (b : Byte) : (s.setDt b).runDone = s.runDone := rfl
@[simp] theorem State.setDt_fault (s : State) (b : Byte) : (s.setDt b).fault = s.fault := rfl
@[simp] theorem State.setDt_key (s : State) (b : Byte) : (s.setDt b).key = s.key := rfl
@[simp] theorem State.setDt_rnd (s : State) (b : Byte) : (s.setDt b).rnd = s.rnd := rfl
@[simp] theorem State.setDt_cfg (s : State) (b : Byte) : (s.setDt b).cfg = s.cfg := rfl
@[simp] theorem State.setDt_events (s : State) (b : Byte) : (s.setDt b).events = s.events := rfl
@[simp] theorem State.setDt_trace (s : State) (b : Byte) : (s.setDt b).trace = s.trace := rfl

/-! ### `setSt` -/

@[simp] theorem State.setSt_v (s : State) (b : Byte) : (s.setSt b).v = s.v := rfl
@[simp] theorem State.setSt_pc (s : State) (b : Byte) : (s.setSt b).pc = s.pc := rfl
@[simp] theorem State.setSt_index (s : State) (b : Byte) : (s.setSt b).index = s.index := rfl
@[simp] theorem State.setSt_sp (s : State) (b : Byte) : (s.setSt b).sp = s.sp := rfl
@[simp] theorem State.setSt_stack (s : State) (b : Byte) : (s.setSt b).stack = s.stack := rfl
@[simp] theorem State.setSt_dt (s : State) (b : Byte) : (s.setSt b).dt = s.dt := rfl
@[simp] theorem State.setSt_st (s : State) (b : Byte) : (s.setSt b).st = b := rfl
@[simp] theorem State.setSt_mem (s : State) (b : Byte) : (s.setSt b).mem = s.mem := rfl
@[simp] theorem State.setSt_fb (s : State) (b : Byte) : (s.setSt b).fb = s.fb := rfl
@[simp] theorem State.setSt_dirty (s : State) (b : Byte) : (s.setSt b).dirty = s.dirty := rfl
@[simp] theorem State.setSt_runState (s : State) (b : Byte) : (s.setSt b).runState = s.runState := rfl
@[simp] theorem State.setSt_stopReq (s : State) (b : Byte) : (s.setSt b).stopReq = s.stopReq := rfl
@[simp] theorem State.setSt_runDone (s : State) (b : Byte) : (s.setSt b).runDone = s.runDone := rfl
@[simp] theorem State.setSt_fault (s : State) (b : Byte) : (s.setSt b).fault = s.fault := rfl
@[simp] theorem State.setSt_key (s : State) (b : Byte) : (s.setSt b).key = s.key := rfl
@[simp] theorem State.setSt_rnd (s : State) (b : Byte) : (s.setSt b).rnd = s.rnd := rfl
@[simp] theorem State.setSt_cfg (s : State) (b : Byte) : (s.setSt b).cfg = s.cfg := rfl
@[simp] theorem State.setSt_events (s : State) (b : Byte) : (s.setSt b).events = s.events := rfl
@[simp] theorem State.setSt_trace (s : State) (b : Byte) : (s.setSt b).trace = s.trace := rfl

/-! ### `writeByte` -/

@[simp] theorem State.writeByte_v (s : State) (a : Nat) (b : Byte) : (s.writeByte a b).v = s.v := rfl
@[simp] theorem State.writeByte_pc (s : State) (a : Nat) (b : Byte) : (s.writeByte a b).pc = s.pc := rfl
@[simp] theorem State.writeByte_index (s : State) (a : Nat) (b : Byte) : (s.writeByte a b).index = s.index := rfl
@[simp] theorem State.writeByte_sp (s : State) (a : Nat) (b : Byte) : (s.writeByte a b).sp = s.sp := rfl
@[simp] theorem State.writeByte_stack (s : State) (a : Nat) (b : Byte) : (s.writeByte a b).stack = s.stack := rfl
@[simp] theorem State.writeByte_dt (s : State) (a : Nat) (b : Byte) : (s.writeByte a b).dt = s.dt := rfl
@[simp] theorem State.writeByte_st (s : State) (a : Nat) (b : Byte) : (s.writeByte a b).st = s.st := rfl
@[simp] theorem State.writeByte_mem (s : State) (a : Nat) (b : Byte) : (s.writeByte a b).mem = Memory.write s.cfg.fontBase s.mem a b := rfl
@[simp] theorem State.writeByte_fb (s : State) (a : Nat) (b : Byte) : (s.writeByte a b).fb = s.fb := rfl
@[simp] theorem State.writeByte_dirty (s : State) (a : Nat) (b : Byte) : (s.writeByte a b).dirty = s.dirty := rfl
@[simp] theorem State.writeByte_runState (s : State) (a : Nat) (b : Byte) : (s.writeByte a b).runState = s.runState := rfl
@[simp] theorem State.writeByte_stopReq (s : State) (a : Nat) (b : Byte) : (s.writeByte a b).stopReq = s.stopReq := rfl
@[simp] theorem State.writeByte_runDone (s : State) (a : Nat) (b : Byte) : (s.writeByte a b).runDone = s.runDone := rfl
@[simp] theorem State.writeByte_fault (s : State) (a : Nat) (b : Byte) : (s.writeByte a b).fault = s.fault := rfl
@[simp] theorem State.writeByte_key (s : State) (a : Nat) (b : Byte) : (s.writeByte a b).key = s.key := rfl
@[simp] theorem State.writeByte_rnd (s : State) (a : Nat) (b : Byte) : (s.writeByte a b).rnd = s.rnd := rfl
@[simp] theorem State.writeByte_cfg (s : State) (a : Nat) (b : Byte) : (s.writeByte a b).cfg = s.cfg := rfl
@[simp] theorem State.writeByte_events (s : State) (a : Nat) (b : Byte) : (s.writeByte a b).events = s.events := rfl
@[simp] theorem State.writeByte_trace (s : State) (a : Nat) (b : Byte) : (s.writeByte a b).trace = s.trace := rfl

/-! ### `setFrame` -/

@[simp] theorem State.setFrame_v (s : State) (f : Frame) : (s.setFrame f).v = s.v := rfl
@[simp] theorem State.setFrame_pc (s : State) (f : Frame) : (s.setFrame f).pc = s.pc := rfl
@[simp] theorem State.setFrame_index (s : State) (f : Frame) : (s.setFrame f).index = s.index := rfl
@[simp] theorem State.setFrame_sp (s : State) (f : Frame) : (s.setFrame f).sp = s.sp := rfl
@[simp] theorem State.setFrame_stack (s : State) (f : Frame) : (s.setFrame f).stack = s.stack := rfl
@[simp] theorem State.setFrame_dt (s : State) (f : Frame) : (s.setFrame f).dt = s.dt := rfl
@[simp] theorem State.setFrame_st (s : State) (f : Frame) : (s.setFrame f).st = s.st := rfl
@[simp] theorem State.setFrame_mem (s : State) (f : Frame) : (s.setFrame f).mem = s.mem := rfl
@[simp] theorem State.setFrame_fb (s : State) (f : Frame) : (s.setFrame f).fb = f := rfl
@[simp] theorem State.setFrame_dirty (s : State) (f : Frame) : (s.setFrame f).dirty = true := rfl
@[simp] theorem State.setFrame_runState (s : State) (f : Frame) : (s.setFrame f).runState = s.runState := rfl
@[simp] theorem State.setFrame_stopReq (s : State) (f : Frame) : (s.setFrame f).stopReq = s.stopReq := rfl
@[simp] theorem State.setFrame_runDone (s : State) (f : Frame) : (s.setFrame f).runDone = s.runDone := rfl
@[simp] theorem State.setFrame_fault (s : State) (f : Frame) : (s.setFrame f).fault = s.fault := rfl
@[simp] theorem State.setFrame_key (s : State) (f : Frame) : (s.setFrame f).key = s.key := rfl
@[simp] theorem State.setFrame_rnd (s : State) (f : Frame) : (s.setFrame f).rnd = s.rnd := rfl
@[simp] theorem State.setFrame_cfg (s : State) (f : Frame) : (s.setFrame f).cfg = s.cfg := rfl
@[simp] theorem State.setFrame_events (s : State) (f : Frame) : (s.setFrame f).events = s.events := rfl
@[simp] theorem State.setFrame_trace (s : State) (f : Frame) : (s.setFrame f).trace = s.trace := rfl

/-! ### `push` -/

@[simp] theorem State.push_v (s : State) (a : Word) : (s.push a).v = s.v := rfl
@[simp] theorem State.push_pc (s : State) (a : Word) : (s.push a).pc = s.pc := rfl
@[simp] theorem State.push_index (s : State) (a : Word) : (s.push a).index = s.index := rfl
@[simp] theorem State.push_sp (s : State) (a : Word) : (s.push a).sp = s.sp + 1 := rfl
@[simp] theorem State.push_stack (s : State) (a : Word) : (s.push a).stack = s.stack.set s.sp a := rfl
@[simp] theorem State.push_dt (s : State) (a : Word) : (s.push a).dt = s.dt := rfl
@[simp] theorem State.push_st (s : State) (a : Word) : (s.push a).st = s.st := rfl
@[simp] theorem State.push_mem (s : State) (a : Word) : (s.push a).mem = s.mem := rfl
@[simp] theorem State.push_fb (s : State) (a : Word) : (s.push a).fb = s.fb := rfl
@[simp] theorem State.push_dirty (s : State) (a : Word) : (s.push a).dirty = s.dirty := rfl
@[simp] theorem State.push_runState (s : State) (a : Word) : (s.push a).runState = s.runState := rfl
@[simp] theorem State.push_stopReq (s : State) (a : Word) : (s.push a).stopReq = s.stopReq := rfl
@[simp] theorem State.push_runDone (s : State) (a : Word) : (s.push a).runDone = s.runDone := rfl
@[simp] theorem State.push_fault (s : State) (a : Word) : (s.push a).fault = s.fault := rfl
@[simp] theorem State.push_key (s : State) (a : Word) : (s.push a).key = s.key := rfl
@[simp] theorem State.push_rnd (s : State) (a : Word) : (s.push a).rnd = s.rnd := rfl
@[simp] theorem State.push_cfg (s : State) (a : Word) : (s.push a).cfg = s.cfg := rfl
@[simp] theorem State.push_events (s : State) (a : Word) : (s.push a).events = s.events := rfl
@[simp] theorem State.push_trace (s : State) (a : Word) : (s.push a).trace = s.trace := rfl

/-! ### `pop` -/

@[simp] theorem State.pop_v (s : State) : s.pop.v = s.v := rfl
@[simp] theorem State.pop_pc (s : State) : s.pop.pc = s.pc := rfl
@[simp] theorem State.pop_index (s : State) : s.pop.index = s.index := rfl
@[simp] theorem State.pop_sp (s : State) : s.pop.sp = s.sp - 1 := rfl
@[simp] theorem State.pop_stack (s : State) : s.pop.stack = s.stack := rfl
@[simp] theorem State.pop_dt (s : State) : s.pop.dt = s.dt := rfl
@[simp] theorem State.pop_st (s : State) : s.pop.st = s.st := rfl
@[simp] theorem State.pop_mem (s : State) : s.pop.mem = s.mem := rfl
@[simp] theorem State.pop_fb (s : State) : s.pop.fb = s.fb := rfl
@[simp] theorem State.pop_dirty (s : State) : s.pop.dirty = s.dirty := rfl
@[simp] theorem State.pop_runState (s : State) : s.pop.runState = s.runState := rfl
@[simp] theorem State.pop_stopReq (s : State) : s.pop.stopReq = s.stopReq := rfl
@[simp] theorem State.pop_runDone (s : State) : s.pop.runDone = s.runDone := rfl
@[simp] theorem State.pop_fault (s : State) : s.pop.fault = s.fault := rfl
@[simp] theorem State.pop_key (s : State) : s.pop.key = s.key := rfl
@[simp] theorem State.pop_rnd (s : State) : s.pop.rnd = s.rnd := rfl
@[simp] theorem State.pop_cfg (s : State) : s.pop.cfg = s.cfg := rfl
@[simp] theorem State.pop_events (s : State) : s.pop.events = s.events := rfl
@[simp] theorem State.pop_trace (s : State) : s.pop.trace = s.trace := rfl

/-! ### `endRun` -/

@[simp] theorem State.endRun_v (s : State) : s.endRun.v = s.v := rfl
@[simp] theorem State.endRun_pc (s : State) : s.endRun.pc = s.pc := rfl
@[simp] theorem State.endRun_index (s : State) : s.endRun.index = s.index := rfl
@[simp] theorem State.endRun_sp (s : State) : s.endRun.sp = s.sp := rfl
@[simp] theorem State.endRun_stack (s : State) : s.endRun.stack = s.stack := rfl
@[simp] theorem State.endRun_dt (s : State) : s.endRun.dt = s.dt := rfl
@[simp] theorem State.endRun_st (s : State) : s.endRun.st = s.st := rfl
@[simp] theorem State.endRun_mem (s : State) : s.endRun.mem = s.mem := rfl
@[simp] theorem State.endRun_fb (s : State) : s.endRun.fb = s.fb := rfl
@[simp] theorem State.endRun_dirty (s : State) : s.endRun.dirty = s.dirty := rfl
@[simp] theorem State.endRun_runState (s : State) : s.endRun.runState = .stopped := rfl
@[simp] theorem State.endRun_stopReq (s : State) : s.endRun.stopReq = s.stopReq := rfl
@[simp] theorem State.endRun_runDone (s : State) : s.endRun.runDone = true := rfl
@[simp] theorem State.endRun_fault (s : State) : s.endRun.fault = s.fault := rfl
@[simp] theorem State.endRun_key (s : State) : s.endRun.key = s.key := rfl
@[simp] theorem State.endRun_rnd (s : State) : s.endRun.rnd = s.rnd := rfl
@[simp] theorem State.endRun_cfg (s : State) : s.endRun.cfg = s.cfg := rfl
@[simp] theorem State.endRun_events (s : State) : s.endRun.events = s.events := rfl
@[simp] theorem State.endRun_trace (s : State) : s.endRun.trace = s.trace := rfl

/-! ### `raise` -/

@[simp] theorem State.raise_v (s : State) (c : FaultCause) (w : Word) : (s.raise c w).v = s.v := rfl
@[simp] theorem State.raise_pc (s : State) (c : FaultCause) (w : Word) : (s.raise c w).pc = s.pc := rfl
@[simp] theorem State.raise_index (s : State) (c : FaultCause) (w : Word) : (s.raise c w).index = s.index := rfl
@[simp] theorem State.raise_sp (s : State) (c : FaultCause) (w : Word) : (s.raise c w).sp = s.sp := rfl
@[simp] theorem State.raise_stack (s : State) (c : FaultCause) (w : Word) : (s.raise c w).stack = s.stack := rfl
@[simp] theorem State.raise_dt (s : State) (c : FaultCause) (w : Word) : (s.raise c w).dt = s.dt := rfl
@[simp] theorem State.raise_st (s : State) (c : FaultCause) (w : Word) : (s.raise c w).st = s.st := rfl
@[simp] theorem State.raise_mem (s : State) (c : FaultCause) (w : Word) : (s.raise c w).mem = s.mem := rfl
@[simp] theorem State.raise_fb (s : State) (c : FaultCause) (w : Word) : (s.raise c w).fb = s.fb := rfl
@[simp] theorem State.raise_dirty (s : State) (c : FaultCause) (w : Word) : (s.raise c w).dirty = s.dirty := rfl
@[simp] theorem State.raise_runState (s : State) (c : FaultCause) (w : Word) : (s.raise c w).runState = .stopped := rfl
@[simp] theorem State.raise_stopReq (s : State) (c : FaultCause) (w : Word) : (s.raise c w).stopReq = s.stopReq := rfl
@[simp] theorem State.raise_runDone (s : State) (c : FaultCause) (w : Word) : (s.raise c w).runDone = true := rfl
@[simp] theorem State.raise_fault (s : State) (c : FaultCause) (w : Word) : (s.raise c w).fault = some ⟨c, s.pc, w⟩ := rfl
@[simp] theorem State.raise_key (s : State) (c : FaultCause) (w : Word) : (s.raise c w).key = s.key := rfl
@[simp] theorem State.raise_rnd (s : State) (c : FaultCause) (w : Word) : (s.raise c w).rnd = s.rnd := rfl
@[simp] theorem State.raise_cfg (s : State) (c : FaultCause) (w : Word) : (s.raise c w).cfg = s.cfg := rfl
@[simp] theorem State.raise_events (s : State) (c : FaultCause) (w : Word) : (s.raise c w).events = s.events := rfl
@[simp] theorem State.raise_trace (s : State) (c : FaultCause) (w : Word) : (s.raise c w).trace = s.trace := rfl

/-! ### `tick` -/

@[simp] theorem State.tick_v (s : State) : s.tick.v = s.v := rfl
@[simp] theorem State.tick_pc (s : State) : s.tick.pc = s.pc := rfl
@[simp] theorem State.tick_index (s : State) : s.tick.index = s.index := rfl
@[simp] theorem State.tick_sp (s : State) : s.tick.sp = s.sp := rfl
@[simp] theorem State.tick_stack (s : State) : s.tick.stack = s.stack := rfl
@[simp] theorem State.tick_dt (s : State) : s.tick.dt = countDown s.dt := rfl
@[simp] theorem State.tick_st (s : State) : s.tick.st = countDown s.st := rfl
@[simp] theorem State.tick_mem (s : State) : s.tick.mem = s.mem := rfl
@[simp] theorem State.tick_fb (s : State) : s.tick.fb = s.fb := rfl
@[simp] theorem State.tick_dirty (s : State) : s.tick.dirty = s.dirty := rfl
@[simp] theorem State.tick_runState (s : State) : s.tick.runState = s.runState := rfl
@[simp] theorem State.tick_stopReq (s : State) : s.tick.stopReq = s.stopReq := rfl
@[simp] theorem State.tick_runDone (s : State) : s.tick.runDone = s.runDone := rfl
@[simp] theorem State.tick_fault (s : State) : s.tick.fault = s.fault := rfl
@[simp] theorem State.tick_key (s : State) : s.tick.key = s.key := rfl
@[simp] theorem State.tick_rnd (s : State) : s.tick.rnd = s.rnd := rfl
@[simp] theorem State.tick_cfg (s : State) : s.tick.cfg = s.cfg := rfl
@[simp] theorem State.tick_events (s : State) : s.tick.events = s.events := rfl
@[simp] theorem State.tick_trace (s : State) : s.tick.trace = s.trace := rfl

end Sys2Proof.Machine
end

