-- ==== Sys2Proof/Laws/Memory.lean ====
section
/-!
SUPPORT. Memory: read after write, the canonical form is kept, canonical memories that read alike are equal.
-/

namespace Sys2Proof.Machine

variable {base : Nat}

/-! ### The list -/

theorem Memory.wfAbove_mono {lo lo' : Nat} {m : Memory} (hle : lo' ≤ lo) (h : Memory.wfAbove base lo m = true) :
    Memory.wfAbove base lo' m = true := by
  cases m with
  | nil => rfl
  | cons e rest =>
    obtain ⟨k, b⟩ := e
    simp only [Memory.wfAbove, Bool.and_eq_true, decide_eq_true_eq] at h ⊢
    exact ⟨⟨⟨by omega, h.1.1.2⟩, h.1.2⟩, h.2⟩

/-- Below its first address a canonical list reads as after reset. -/
theorem Memory.read_below {lo a : Nat} {m : Memory} (h : Memory.wfAbove base lo m = true) (ha : a < lo) :
    Memory.read base m a = resetByte base a := by
  induction m generalizing lo with
  | nil => rfl
  | cons e rest ih =>
    obtain ⟨k, b⟩ := e
    simp only [Memory.wfAbove, Bool.and_eq_true, decide_eq_true_eq] at h
    rw [Memory.read, if_neg (by omega)]
    exact ih h.2 (by omega)

/-- An address of 4096 or more reads as after reset: no entry names it. -/
theorem Memory.read_outside {lo a : Nat} {m : Memory} (h : Memory.wfAbove base lo m = true) (ha : 4096 ≤ a) :
    Memory.read base m a = resetByte base a := by
  induction m generalizing lo with
  | nil => rfl
  | cons e rest ih =>
    obtain ⟨k, b⟩ := e
    simp only [Memory.wfAbove, Bool.and_eq_true, decide_eq_true_eq] at h
    rw [Memory.read, if_neg (by omega)]
    exact ih h.2

theorem Memory.read_insert_of_ne (m : Memory) {a c : Nat} (b : Byte) (h : c ≠ a) :
    Memory.read base (Memory.insert base m a b) c = Memory.read base m c := by
  induction m with
  | nil => unfold Memory.insert; split <;> simp [Memory.read, h]
  | cons e rest ih =>
    obtain ⟨k, d⟩ := e
    unfold Memory.insert
    split
    · split <;> simp [Memory.read, h]
    · split
      · subst_vars; split <;> simp [Memory.read, h]
      · simp [Memory.read, ih]

theorem Memory.read_insert_self {lo : Nat} {m : Memory} {a : Nat} (b : Byte) (h : Memory.wfAbove base lo m = true) :
    Memory.read base (Memory.insert base m a b) a = b := by
  induction m generalizing lo with
  | nil => unfold Memory.insert; split <;> simp_all [Memory.read]
  | cons e rest ih =>
    obtain ⟨k, d⟩ := e
    simp only [Memory.wfAbove, Bool.and_eq_true, decide_eq_true_eq] at h
    unfold Memory.insert
    split
    · split
      · rename_i hak hb
        rw [Memory.read, if_neg (by omega), Memory.read_below h.2 (by omega), hb]
      · simp [Memory.read]
    · split
      · split
        · rename_i hak hb
          rw [Memory.read_below h.2 (by omega), hb]
        · simp [Memory.read]
      · rename_i hne
        rw [Memory.read, if_neg hne]
        exact ih h.2

theorem Memory.wfAbove_insert {lo : Nat} {m : Memory} {a : Nat} (b : Byte) (ha : a < 4096) (hlo : lo ≤ a)
    (h : Memory.wfAbove base lo m = true) : Memory.wfAbove base lo (Memory.insert base m a b) = true := by
  induction m generalizing lo with
  | nil => unfold Memory.insert; split <;> simp_all [Memory.wfAbove]
  | cons e rest ih =>
    obtain ⟨k, d⟩ := e
    have h0 := h
    simp only [Memory.wfAbove, Bool.and_eq_true, decide_eq_true_eq] at h
    unfold Memory.insert
    split
    · rename_i hak
      split
      · exact h0
      · rename_i hb
        simp only [Memory.wfAbove, Bool.and_eq_true, decide_eq_true_eq]
        exact ⟨⟨⟨hlo, ha⟩, hb⟩, ⟨⟨by omega, h.1.1.2⟩, h.1.2⟩, h.2⟩
    · split
      · rename_i hak
        subst hak
        split
        · exact Memory.wfAbove_mono (by omega) h.2
        · rename_i hb
          simp only [Memory.wfAbove, Bool.and_eq_true, decide_eq_true_eq]
          exact ⟨⟨⟨hlo, ha⟩, hb⟩, h.2⟩
      · simp only [Memory.wfAbove, Bool.and_eq_true, decide_eq_true_eq]
        exact ⟨h.1, ih (by omega) h.2⟩

/-- Everything a write does, said through the read of one byte. -/
theorem Memory.read_write {m : Memory} (h : Memory.wf base m = true) (a : Nat) (b : Byte) (c : Nat) :
    Memory.read base (Memory.write base m a b) c = if c = a ∧ a < 4096 then b else Memory.read base m c := by
  unfold Memory.write
  by_cases ha : a < 4096
  · by_cases hc : c = a
    · subst hc; simp [ha, Memory.read_insert_self b h]
    · simp [ha, hc, Memory.read_insert_of_ne]
  · simp [ha]

theorem Memory.read_write_of_ne (m : Memory) {a c : Nat} (b : Byte) (h : c ≠ a) :
    Memory.read base (Memory.write base m a b) c = Memory.read base m c := by
  unfold Memory.write
  split
  · exact Memory.read_insert_of_ne m b h
  · rfl

/-- A write keeps the canonical form. -/
theorem Memory.wf_write {m : Memory} (h : Memory.wf base m = true) (a : Nat) (b : Byte) :
    Memory.wf base (Memory.write base m a b) = true := by
  unfold Memory.write
  split
  · exact Memory.wfAbove_insert b ‹_› (Nat.zero_le _) h
  · exact h

/-- Canonical lists that read alike everywhere are equal. -/
theorem Memory.eq_of_read_eq {lo : Nat} {m m' : Memory} (h : Memory.wfAbove base lo m = true)
    (h' : Memory.wfAbove base lo m' = true) (hr : ∀ a, Memory.read base m a = Memory.read base m' a) : m = m' := by
  induction m generalizing lo m' with
  | nil =>
    cases m' with
    | nil => rfl
    | cons e rest =>
      obtain ⟨k, b⟩ := e
      simp only [Memory.wfAbove, Bool.and_eq_true, decide_eq_true_eq] at h'
      have := hr k
      simp only [Memory.read, if_true] at this
      exact absurd this.symm h'.1.2
  | cons e rest ih =>
    obtain ⟨k, b⟩ := e
    have h0 := h
    simp only [Memory.wfAbove, Bool.and_eq_true, decide_eq_true_eq] at h
    cases m' with
    | nil =>
      have := hr k
      simp only [Memory.read, if_true] at this
      exact absurd this h.1.2
    | cons e' rest' =>
      obtain ⟨k', b'⟩ := e'
      have h0' := h'
      simp only [Memory.wfAbove, Bool.and_eq_true, decide_eq_true_eq] at h'
      rcases Nat.lt_trichotomy k k' with hk | hk | hk
      · have := hr k
        rw [Memory.read, if_pos rfl, Memory.read, if_neg (by omega), Memory.read_below h'.2 (by omega)] at this
        exact absurd this h.1.2
      · subst hk
        have hb := hr k
        simp only [Memory.read, if_true] at hb
        have hrest : rest = rest' := by
          refine ih h.2 h'.2 fun a => ?_
          by_cases ha : a = k
          · subst ha
            rw [Memory.read_below h.2 (by omega), Memory.read_below h'.2 (by omega)]
          · have := hr a
            simpa only [Memory.read, if_neg ha] using this
        rw [hb, hrest]
      · have := hr k'
        rw [Memory.read, if_neg (by omega), Memory.read_below h.2 (by omega), Memory.read, if_pos rfl] at this
        exact absurd this.symm h'.1.2

/-! ### Through the state -/

theorem State.byteAt_writeByte {s : State} (h : Memory.wf s.cfg.fontBase s.mem = true) (a : Nat) (b : Byte) (c : Nat) :
    (s.writeByte a b).byteAt c = if c = a ∧ a < 4096 then b else s.byteAt c :=
  Memory.read_write h a b c

theorem State.byteAt_writeByte_of_ne (s : State) {a c : Nat} (b : Byte) (h : c ≠ a) :
    (s.writeByte a b).byteAt c = s.byteAt c :=
  Memory.read_write_of_ne s.mem b h

theorem State.wf_writeByte {s : State} (h : Memory.wf s.cfg.fontBase s.mem = true) (a : Nat) (b : Byte) :
    Memory.wf (s.writeByte a b).cfg.fontBase (s.writeByte a b).mem = true :=
  Memory.wf_write h a b

/-- A byte store changes memory only. -/
theorem State.storeBytes_eq (s : State) (a : Nat) (bs : List Byte) :
    s.storeBytes a bs = { s with mem := (s.storeBytes a bs).mem } := by
  induction bs generalizing s a with
  | nil => rfl
  | cons b rest ih => rw [State.storeBytes, ih]; rfl

theorem State.wf_storeBytes {s : State} (h : Memory.wf s.cfg.fontBase s.mem = true) (a : Nat) (bs : List Byte) :
    Memory.wf s.cfg.fontBase (s.storeBytes a bs).mem = true := by
  induction bs generalizing s a with
  | nil => exact h
  | cons b rest ih => exact ih (s := s.writeByte a b) (State.wf_writeByte h a b) (a + 1)

/-- Bytes outside the stored ones read as before. -/
theorem State.byteAt_storeBytes_outside (s : State) (a : Nat) (bs : List Byte) {c : Nat}
    (h : c < a ∨ a + bs.length ≤ c) : (s.storeBytes a bs).byteAt c = s.byteAt c := by
  induction bs generalizing s a with
  | nil => rfl
  | cons b rest ih =>
    rw [List.length_cons] at h
    rw [State.storeBytes, ih _ _ (by omega), State.byteAt_writeByte_of_ne _ _ (by omega)]

/-- The stored bytes read back. -/
theorem State.byteAt_storeBytes_inside {s : State} (hw : Memory.wf s.cfg.fontBase s.mem = true) (a : Nat)
    (bs : List Byte) (hr : a + bs.length ≤ 4096) (k : Nat) (hk : k < bs.length) :
    (s.storeBytes a bs).byteAt (a + k) = bs[k] := by
  induction bs generalizing s a k with
  | nil => simp at hk
  | cons b rest ih =>
    rw [List.length_cons] at hr hk
    rw [State.storeBytes]
    cases k with
    | zero =>
      rw [State.byteAt_storeBytes_outside _ _ _ (by omega), State.byteAt_writeByte hw]
      simp; omega
    | succ k =>
      have := ih (s := s.writeByte a b) (State.wf_writeByte hw a b) (a + 1) (by omega) k (by omega)
      rw [show a + (k + 1) = a + 1 + k by omega, this]
      rfl

end Sys2Proof.Machine
end

