-- ==== Sys2Proof/Laws/Registers.lean ====
section
/-!
SUPPORT. Registers: read after write, the multi-register load, and the fields that the composed register operations leave.
-/

namespace Sys2Proof.Machine

@[simp] theorem State.reg_setReg (s : State) (r : Reg) (b : Byte) (q : Reg) :
    (s.setReg r b).reg q = if q = r then b else s.reg q := by
  simp [State.reg, State.setReg, Vector.getElem_set, Fin.ext_iff, eq_comm]

@[simp] theorem State.reg_setPc (s : State) (a : Word) (q : Reg) : (s.setPc a).reg q = s.reg q := rfl
@[simp] theorem State.reg_setIndex (s : State) (a : Word) (q : Reg) : (s.setIndex a).reg q = s.reg q := rfl
@[simp] theorem State.reg_setDt (s : State) (b : Byte) (q : Reg) : (s.setDt b).reg q = s.reg q := rfl
@[simp] theorem State.reg_setSt (s : State) (b : Byte) (q : Reg) : (s.setSt b).reg q = s.reg q := rfl
@[simp] theorem State.reg_setFrame (s : State) (f : Frame) (q : Reg) : (s.setFrame f).reg q = s.reg q := rfl
@[simp] theorem State.reg_writeByte (s : State) (a : Nat) (b : Byte) (q : Reg) : (s.writeByte a b).reg q = s.reg q := rfl
@[simp] theorem State.reg_push (s : State) (a : Word) (q : Reg) : (s.push a).reg q = s.reg q := rfl
@[simp] theorem State.reg_pop (s : State) (q : Reg) : s.pop.reg q = s.reg q := rfl
@[simp] theorem State.reg_raise (s : State) (c : FaultCause) (w : Word) (q : Reg) : (s.raise c w).reg q = s.reg q := rfl

@[simp] theorem State.byteAt_setReg (s : State) (r : Reg) (b : Byte) (a : Nat) : (s.setReg r b).byteAt a = s.byteAt a := rfl
@[simp] theorem State.byteAt_setPc (s : State) (p : Word) (a : Nat) : (s.setPc p).byteAt a = s.byteAt a := rfl
@[simp] theorem State.byteAt_setIndex (s : State) (i : Word) (a : Nat) : (s.setIndex i).byteAt a = s.byteAt a := rfl
@[simp] theorem State.byteAt_setDt (s : State) (b : Byte) (a : Nat) : (s.setDt b).byteAt a = s.byteAt a := rfl
@[simp] theorem State.byteAt_setSt (s : State) (b : Byte) (a : Nat) : (s.setSt b).byteAt a = s.byteAt a := rfl
@[simp] theorem State.byteAt_setFrame (s : State) (f : Frame) (a : Nat) : (s.setFrame f).byteAt a = s.byteAt a := rfl
@[simp] theorem State.byteAt_push (s : State) (w : Word) (a : Nat) : (s.push w).byteAt a = s.byteAt a := rfl
@[simp] theorem State.byteAt_pop (s : State) (a : Nat) : s.pop.byteAt a = s.byteAt a := rfl
@[simp] theorem State.byteAt_raise (s : State) (c : FaultCause) (w : Word) (a : Nat) : (s.raise c w).byteAt a = s.byteAt a := rfl

/-- A multi-register load changes registers only. -/
theorem State.loadRegs_eq (s : State) (base count : Nat) :
    s.loadRegs base count = { s with v := (s.loadRegs base count).v } := by
  induction count with
  | zero => rfl
  | succ k ih => rw [State.loadRegs, ih]; rfl

/-- The loaded registers hold the bytes from `base` up; the others keep their values. -/
theorem State.reg_loadRegs (s : State) (base count : Nat) (hc : count ≤ 16) (q : Reg) :
    (s.loadRegs base count).reg q = if q.val < count then s.byteAt (base + q.val) else s.reg q := by
  induction count with
  | zero => simp [State.loadRegs]
  | succ k ih =>
    have hq : q = Fin.ofNat 16 k ↔ q.val = k := by
      rw [Fin.ext_iff]; simp [Fin.ofNat, Nat.mod_eq_of_lt (show k < 16 by omega)]
    rw [State.loadRegs, State.reg_setReg, ih (by omega)]
    by_cases h : q.val = k
    · rw [if_pos (hq.2 h), if_pos (by omega), h]
    · rw [if_neg (fun e => h (hq.1 e))]
      by_cases h2 : q.val < k
      · rw [if_pos h2, if_pos (by omega)]
      · rw [if_neg h2, if_neg (by omega)]

theorem State.length_firstRegs (s : State) (count : Nat) (hc : count ≤ 16) : (s.firstRegs count).length = count := by
  simp [State.firstRegs, hc]

theorem State.getElem_firstRegs (s : State) (count k : Nat) (h : k < (s.firstRegs count).length) (hk : k < 16) :
    (s.firstRegs count)[k] = s.reg ⟨k, hk⟩ := by
  simp [State.firstRegs, State.reg]

/-- Two different registers never clash; the flag write comes last and wins (R121). -/
theorem State.reg_writeResultFlag (s : State) (x : Reg) (result flag : Byte) (q : Reg) :
    (s.writeResultFlag x result flag).reg q = if q = VF then flag else if q = x then result else s.reg q := by
  simp [State.writeResultFlag, State.advance]

theorem State.reg_writeResult (s : State) (x : Reg) (result : Byte) (q : Reg) :
    (s.writeResult x result).reg q = if q = x then result else s.reg q := by
  simp [State.writeResult, State.advance]

end Sys2Proof.Machine
end

