-- ==== Sys2Proof/Laws/Frames.lean ====
section
/-!
SUPPORT. What each shared operation leaves unchanged, in the terms of Safety.lean; frames of composed operations follow
with `ChangesOnly.trans`.
-/

namespace Sys2Proof.Machine

theorem Part.same_refl (p : Part) (s : State) : p.same s s := by cases p <;> rfl

theorem Part.same_trans {p : Part} {s t u : State} (h : p.same s t) (h' : p.same t u) : p.same s u := by
  cases p <;> exact Eq.trans h' h

theorem ChangesOnly.refl (may : Part → Prop) (s : State) : ChangesOnly may s s := fun p _ => p.same_refl s

theorem ChangesOnly.trans {may : Part → Prop} {s t u : State} (h : ChangesOnly may s t) (h' : ChangesOnly may t u) :
    ChangesOnly may s u := fun p hp => Part.same_trans (h p hp) (h' p hp)

theorem ChangesOnly.mono {may may' : Part → Prop} {s t : State} (h : ChangesOnly may s t) (hm : ∀ p, may p → may' p) :
    ChangesOnly may' s t := fun p hp => h p fun hq => hp (hm p hq)

theorem changesOnly_setReg (s : State) (r : Reg) (b : Byte) : ChangesOnly (· = .reg r) s (s.setReg r b) := by
  intro p hp
  cases p with
  | reg q => simpa [Part.same] using fun h : q = r => absurd (congrArg Part.reg h) hp
  | _ => rfl

theorem changesOnly_setPc (s : State) (a : Word) : ChangesOnly (· = .pc) s (s.setPc a) := by
  intro p hp; cases p <;> first | rfl | exact absurd rfl hp

theorem changesOnly_setIndex (s : State) (a : Word) : ChangesOnly (· = .index) s (s.setIndex a) := by
  intro p hp; cases p <;> first | rfl | exact absurd rfl hp

theorem changesOnly_setDt (s : State) (b : Byte) : ChangesOnly (· = .dt) s (s.setDt b) := by
  intro p hp; cases p <;> first | rfl | exact absurd rfl hp

theorem changesOnly_setSt (s : State) (b : Byte) : ChangesOnly (· = .st) s (s.setSt b) := by
  intro p hp; cases p <;> first | rfl | exact absurd rfl hp

theorem changesOnly_writeByte (s : State) (a : Nat) (b : Byte) : ChangesOnly (· = .byte a) s (s.writeByte a b) := by
  intro p hp
  cases p with
  | byte c => exact State.byteAt_writeByte_of_ne s b fun h => hp (congrArg Part.byte h)
  | _ => rfl

theorem changesOnly_setFrame (s : State) (f : Frame) :
    ChangesOnly (fun p => p = .dirty ∨ ∃ x y, p = .pixel x y) s (s.setFrame f) := by
  intro p hp
  cases p with
  | dirty => exact absurd (.inl rfl) hp
  | pixel x y => exact absurd (.inr ⟨x, y, rfl⟩) hp
  | _ => rfl

theorem changesOnly_push (s : State) (a : Word) :
    ChangesOnly (fun p => p = .sp ∨ p = .stackEntry s.sp) s (s.push a) := by
  intro p hp
  cases p with
  | sp => exact absurd (.inl rfl) hp
  | stackEntry k =>
    have hk : s.sp ≠ k := fun h => hp (.inr (by rw [h]))
    simp [Part.same, hk]
  | _ => rfl

theorem changesOnly_pop (s : State) : ChangesOnly (· = .sp) s s.pop := by
  intro p hp; cases p <;> first | rfl | exact absurd rfl hp

theorem changesOnly_storeBytes (s : State) (a : Nat) (bs : List Byte) :
    ChangesOnly (fun p => ∃ c, p = .byte c ∧ a ≤ c ∧ c < a + bs.length) s (s.storeBytes a bs) := by
  intro p hp
  cases p with
  | byte c => exact State.byteAt_storeBytes_outside s a bs (by
      have : ¬ (a ≤ c ∧ c < a + bs.length) := fun h => hp ⟨c, rfl, h⟩
      omega)
  | _ => rw [State.storeBytes_eq]; rfl

theorem changesOnly_loadRegs (s : State) (base count : Nat) (hc : count ≤ 16) :
    ChangesOnly (fun p => ∃ q : Reg, p = .reg q ∧ q.val < count) s (s.loadRegs base count) := by
  intro p hp
  cases p with
  | reg q =>
    have hq : ¬ q.val < count := fun h => hp ⟨q, rfl, h⟩
    simp [Part.same, State.reg_loadRegs s base count hc, hq]
  | _ => rw [State.loadRegs_eq]; rfl

/-- Taking a fault does what R179 says and nothing else. -/
theorem faulted_raise (s : State) (c : FaultCause) (w : Word) : Faulted c w s (s.raise c w) := by
  refine ⟨rfl, rfl, rfl, fun p hp => ?_⟩
  cases p <;> first | rfl | exact absurd (by simp) hp

/-- The bounds check: the fault, or the effect (R146). -/
theorem guardRange_cases (s : State) (len : Nat) (effect : State) :
    (outOfRange s.index.toNat len = true ∧
      s.guardRange len effect = s.raiseAt (.addressOutOfRange (firstInvalid s.index.toNat))) ∨
    (outOfRange s.index.toNat len = false ∧ s.guardRange len effect = effect) := by
  unfold State.guardRange
  cases h : outOfRange s.index.toNat len
  · exact .inr ⟨rfl, rfl⟩
  · exact .inl ⟨rfl, rfl⟩

theorem outOfRange_iff (base len : Nat) : outOfRange base len = true ↔ 0 < len ∧ 4096 ≤ base + len - 1 := by
  simp [outOfRange]

theorem outOfRange_eq_false_iff (base len : Nat) : outOfRange base len = false ↔ len = 0 ∨ base + len ≤ 4096 := by
  rw [← Bool.not_eq_true, outOfRange_iff]; omega

end Sys2Proof.Machine
end

