-- ==== Sys2Proof/Laws/Exec.lean ====
section
/-!
SUPPORT. What executing one instruction can do, said once for all instructions: it raises the one fault it may raise, or
it changes only the parts listed here.
-/

namespace Sys2Proof.Machine

/-- The parts an instruction that does not fault may change. -/
def touches (s : State) : Instr → Part → Prop
  | .cls => fun p => p = .pc ∨ p = .dirty ∨ ∃ x y, p = .pixel x y
  | .ret => fun p => p = .pc ∨ p = .sp
  | .call _ => fun p => p = .pc ∨ p = .sp ∨ p = .stackEntry s.sp
  | .jp _ | .jpV0 _ | .seImm _ _ | .sneImm _ _ | .seReg _ _ | .sneReg _ _ | .skp _ | .sknp _ => fun p => p = .pc
  | .ldImm x _ | .addImm x _ | .ldReg x _ | .orReg x _ | .andReg x _ | .xorReg x _ | .rnd x _ | .ldVxDt x
  | .ldVxK x => fun p => p = .pc ∨ p = .reg x
  | .addReg x _ | .subReg x _ | .shr x _ | .subn x _ | .shl x _ => fun p => p = .pc ∨ p = .reg x ∨ p = .reg VF
  | .ldI _ | .addI _ | .ldF _ => fun p => p = .pc ∨ p = .index
  | .drw _ _ _ => fun p => p = .pc ∨ p = .dirty ∨ p = .reg VF ∨ ∃ x y, p = .pixel x y
  | .ldDtVx _ => fun p => p = .pc ∨ p = .dt
  | .ldStVx _ => fun p => p = .pc ∨ p = .st
  | .ldB _ => fun p => p = .pc ∨ ∃ a, p = .byte a ∧ s.index.toNat ≤ a ∧ a < s.index.toNat + 3
  | .storeRegs x => fun p => p = .pc ∨ ∃ a, p = .byte a ∧ s.index.toNat ≤ a ∧ a < s.index.toNat + (x.val + 1)
  | .loadRegs x => fun p => p = .pc ∨ ∃ q : Reg, p = .reg q ∧ q.val < x.val + 1

theorem changesOnly_advance (s : State) : ChangesOnly (· = .pc) s s.advance := changesOnly_setPc s _

theorem changesOnly_skipIf (s : State) (taken : Bool) : ChangesOnly (· = .pc) s (s.skipIf taken) := changesOnly_setPc s _

theorem changesOnly_writeResult (s : State) (x : Reg) (b : Byte) :
    ChangesOnly (fun p => p = .pc ∨ p = .reg x) s (s.writeResult x b) :=
  ((changesOnly_setReg s x b).mono (by simp)).trans ((changesOnly_advance _).mono (by simp))

theorem changesOnly_writeResultFlag (s : State) (x : Reg) (b f : Byte) :
    ChangesOnly (fun p => p = .pc ∨ p = .reg x ∨ p = .reg VF) s (s.writeResultFlag x b f) :=
  (((changesOnly_setReg s x b).mono (by simp)).trans ((changesOnly_setReg _ _ _).mono (by simp))).trans
    ((changesOnly_advance _).mono (by simp))

/-- Two changes one after the other, each within `may`. -/
theorem ChangesOnly.then {may m m' : Part → Prop} {s t u : State} (h : ChangesOnly m s t) (h' : ChangesOnly m' t u)
    (hm : ∀ p, m p → may p) (hm' : ∀ p, m' p → may p) : ChangesOnly may s u :=
  (h.mono hm).trans (h'.mono hm')

/-- `exec` raises a fault of the instruction, at its own address and with nothing changed before, or does not fault and
stays within the parts above. -/
theorem exec_cases {i : Instr} {s t : State} (h : exec i s = .next t) :
    (∃ c, i.mayRaise c ∧ t = s.raiseAt c) ∨ ChangesOnly (touches s i) s t := by
  cases i
  case ret =>
    cases h; split
    · exact .inl ⟨_, rfl, rfl⟩
    · exact .inr ((changesOnly_pop s).then (changesOnly_setPc _ _) (by simp [touches]) (by simp [touches]))
  case call nnn =>
    cases h; split
    · exact .inr ((changesOnly_push s _).then (changesOnly_setPc _ _) (by simp [touches]) (by simp [touches]))
    · exact .inl ⟨_, rfl, rfl⟩
  case jp | jpV0 => cases h; exact .inr (changesOnly_setPc s _)
  case seImm | sneImm | seReg | sneReg | skp | sknp => cases h; exact .inr (changesOnly_skipIf s _)
  case ldImm | addImm | ldReg | orReg | andReg | xorReg | rnd | ldVxDt => cases h; exact .inr (changesOnly_writeResult s _ _)
  case addReg | subReg | shr | subn | shl => cases h; exact .inr (changesOnly_writeResultFlag s _ _ _)
  case ldVxK x =>
    cases h; split
    · exact .inr (ChangesOnly.refl _ s)
    · exact .inr (changesOnly_writeResult s _ _)
  case ldI | addI | ldF =>
    cases h
    exact .inr ((changesOnly_setIndex s _).then (changesOnly_advance _) (by simp [touches]) (by simp [touches]))
  case ldDtVx =>
    cases h; exact .inr ((changesOnly_setDt s _).then (changesOnly_advance _) (by simp [touches]) (by simp [touches]))
  case ldStVx =>
    cases h; exact .inr ((changesOnly_setSt s _).then (changesOnly_advance _) (by simp [touches]) (by simp [touches]))
  case cls =>
    cases h
    exact .inr ((changesOnly_setFrame s _).then (changesOnly_advance _) (by simp [touches]; tauto) (by simp [touches]))
  case drw x y n =>
    cases h
    rcases guardRange_cases s n _ with ⟨_, e⟩ | ⟨_, e⟩
    · exact .inl ⟨_, ⟨_, rfl⟩, e⟩
    · rw [e]
      exact .inr (((changesOnly_setFrame s _).then (changesOnly_setReg _ _ _) (by simp [touches]; tauto)
        (by simp [touches])).trans ((changesOnly_advance _).mono (by simp [touches])))
  case ldB x =>
    cases h
    rcases guardRange_cases s 3 _ with ⟨_, e⟩ | ⟨_, e⟩
    · exact .inl ⟨_, ⟨_, rfl⟩, e⟩
    · rw [e]
      exact .inr ((changesOnly_storeBytes s _ _).then (changesOnly_advance _) (fun p hp => .inr hp) (fun p hp => .inl hp))
  case storeRegs x =>
    cases h
    rcases guardRange_cases s (x.val + 1) _ with ⟨_, e⟩ | ⟨_, e⟩
    · exact .inl ⟨_, ⟨_, rfl⟩, e⟩
    · rw [e]
      refine .inr ((changesOnly_storeBytes s _ _).then (changesOnly_advance _) (fun p hp => .inr ?_) (fun p hp => .inl hp))
      rwa [State.length_firstRegs _ _ (by omega)] at hp
  case loadRegs x =>
    cases h
    rcases guardRange_cases s (x.val + 1) _ with ⟨_, e⟩ | ⟨_, e⟩
    · exact .inl ⟨_, ⟨_, rfl⟩, e⟩
    · rw [e]
      exact .inr ((changesOnly_loadRegs s _ _ (by omega)).then (changesOnly_advance _) (fun p hp => .inr hp)
        (fun p hp => .inl hp))

/-- The parts no instruction changes unless it faults (R41, R43), and those no instruction ever changes. -/
structure RunKept (s t : State) : Prop where
  runState : t.runState = s.runState
  runDone  : t.runDone = s.runDone
  fault    : t.fault = s.fault
  stopReq  : t.stopReq = s.stopReq
  key      : t.key = s.key
  rnd      : t.rnd = s.rnd
  cfg      : t.cfg = s.cfg
  events   : t.events = s.events
  trace    : t.trace = s.trace

theorem runKept_of_touches {i : Instr} {s t : State} (h : ChangesOnly (touches s i) s t) : RunKept s t := by
  refine ⟨h .runState ?_, h .runDone ?_, h .fault ?_, h .stopReq ?_, h .key ?_, h .rnd ?_, h .cfg ?_, h .events ?_,
    h .trace ?_⟩ <;> cases i <;> simp [touches]

end Sys2Proof.Machine
end

