-- ==== Sys2Proof/Laws/PerInstr.lean ====
section
/-!
SUPPORT. Per instruction: its word is a hit of one row of the opcode table, and that row reads the instruction back.
-/

namespace Sys2Proof.Laws

/-- Some row of the table is hit by the word of `i`, and builds `i` from it. -/
def EncodedRow.Statement (i : Instr) : Prop :=
  i.wellFormed = true →
    ∃ (k : Nat) (r : OpcodeRow), opcodeTable[k]? = some r ∧ r.hits (encodeWord i) = true ∧ r.build (encodeWord i) = i

theorem EncodedRow.cls : EncodedRow.Statement .cls := fun _ =>
  ⟨0, _, rfl, by decide, rfl⟩

theorem EncodedRow.ret : EncodedRow.Statement .ret := fun _ =>
  ⟨1, _, rfl, by decide, rfl⟩

theorem EncodedRow.jp (nnn : BitVec 12) : EncodedRow.Statement (.jp nnn) := fun _ =>
  ⟨2, _, rfl, hits_op rfl (fieldOp_packA _ _), by simp [encodeWord]⟩

theorem EncodedRow.call (nnn : BitVec 12) : EncodedRow.Statement (.call nnn) := fun _ =>
  ⟨3, _, rfl, hits_op rfl (fieldOp_packA _ _), by simp [encodeWord]⟩

theorem EncodedRow.seImm (x : Reg) (nn : Byte) : EncodedRow.Statement (.seImm x nn) := fun _ =>
  ⟨4, _, rfl, hits_op rfl (fieldOp_packXI _ _ _), by simp [encodeWord]⟩

theorem EncodedRow.sneImm (x : Reg) (nn : Byte) : EncodedRow.Statement (.sneImm x nn) := fun _ =>
  ⟨5, _, rfl, hits_op rfl (fieldOp_packXI _ _ _), by simp [encodeWord]⟩

theorem EncodedRow.seReg (x y : Reg) : EncodedRow.Statement (.seReg x y) := fun _ =>
  ⟨6, _, rfl, hits_op_n rfl (fieldOp_packNibbles _ _ _ _) (fieldN_packNibbles _ _ _ _),
    by simp [encodeWord]⟩

theorem EncodedRow.ldImm (x : Reg) (nn : Byte) : EncodedRow.Statement (.ldImm x nn) := fun _ =>
  ⟨7, _, rfl, hits_op rfl (fieldOp_packXI _ _ _), by simp [encodeWord]⟩

theorem EncodedRow.addImm (x : Reg) (nn : Byte) : EncodedRow.Statement (.addImm x nn) := fun _ =>
  ⟨8, _, rfl, hits_op rfl (fieldOp_packXI _ _ _), by simp [encodeWord]⟩

theorem EncodedRow.ldReg (x y : Reg) : EncodedRow.Statement (.ldReg x y) := fun _ =>
  ⟨9, _, rfl, hits_op_n rfl (fieldOp_packNibbles _ _ _ _) (fieldN_packNibbles _ _ _ _),
    by simp [encodeWord]⟩

theorem EncodedRow.orReg (x y : Reg) : EncodedRow.Statement (.orReg x y) := fun _ =>
  ⟨10, _, rfl, hits_op_n rfl (fieldOp_packNibbles _ _ _ _) (fieldN_packNibbles _ _ _ _),
    by simp [encodeWord]⟩

theorem EncodedRow.andReg (x y : Reg) : EncodedRow.Statement (.andReg x y) := fun _ =>
  ⟨11, _, rfl, hits_op_n rfl (fieldOp_packNibbles _ _ _ _) (fieldN_packNibbles _ _ _ _),
    by simp [encodeWord]⟩

theorem EncodedRow.xorReg (x y : Reg) : EncodedRow.Statement (.xorReg x y) := fun _ =>
  ⟨12, _, rfl, hits_op_n rfl (fieldOp_packNibbles _ _ _ _) (fieldN_packNibbles _ _ _ _),
    by simp [encodeWord]⟩

theorem EncodedRow.addReg (x y : Reg) : EncodedRow.Statement (.addReg x y) := fun _ =>
  ⟨13, _, rfl, hits_op_n rfl (fieldOp_packNibbles _ _ _ _) (fieldN_packNibbles _ _ _ _),
    by simp [encodeWord]⟩

theorem EncodedRow.subReg (x y : Reg) : EncodedRow.Statement (.subReg x y) := fun _ =>
  ⟨14, _, rfl, hits_op_n rfl (fieldOp_packNibbles _ _ _ _) (fieldN_packNibbles _ _ _ _),
    by simp [encodeWord]⟩

theorem EncodedRow.shr (x y : Reg) : EncodedRow.Statement (.shr x y) := fun _ =>
  ⟨15, _, rfl, hits_op_n rfl (fieldOp_packNibbles _ _ _ _) (fieldN_packNibbles _ _ _ _),
    by simp [encodeWord]⟩

theorem EncodedRow.subn (x y : Reg) : EncodedRow.Statement (.subn x y) := fun _ =>
  ⟨16, _, rfl, hits_op_n rfl (fieldOp_packNibbles _ _ _ _) (fieldN_packNibbles _ _ _ _),
    by simp [encodeWord]⟩

theorem EncodedRow.shl (x y : Reg) : EncodedRow.Statement (.shl x y) := fun _ =>
  ⟨17, _, rfl, hits_op_n rfl (fieldOp_packNibbles _ _ _ _) (fieldN_packNibbles _ _ _ _),
    by simp [encodeWord]⟩

theorem EncodedRow.sneReg (x y : Reg) : EncodedRow.Statement (.sneReg x y) := fun _ =>
  ⟨18, _, rfl, hits_op_n rfl (fieldOp_packNibbles _ _ _ _) (fieldN_packNibbles _ _ _ _),
    by simp [encodeWord]⟩

theorem EncodedRow.ldI (nnn : BitVec 12) : EncodedRow.Statement (.ldI nnn) := fun _ =>
  ⟨19, _, rfl, hits_op rfl (fieldOp_packA _ _), by simp [encodeWord]⟩

theorem EncodedRow.jpV0 (nnn : BitVec 12) : EncodedRow.Statement (.jpV0 nnn) := fun _ =>
  ⟨20, _, rfl, hits_op rfl (fieldOp_packA _ _), by simp [encodeWord]⟩

theorem EncodedRow.rnd (x : Reg) (nn : Byte) : EncodedRow.Statement (.rnd x nn) := fun _ =>
  ⟨21, _, rfl, hits_op rfl (fieldOp_packXI _ _ _), by simp [encodeWord]⟩

theorem EncodedRow.drw (x y : Reg) (n : Nat) : EncodedRow.Statement (.drw x y n) := fun h =>
  ⟨22, _, rfl, hits_op rfl (fieldOp_packNibbles _ _ _ _), by
    have hn : n < 16 := by simpa [Instr.wellFormed] using h
    simp [encodeWord, Nat.mod_eq_of_lt hn]⟩

theorem EncodedRow.skp (x : Reg) : EncodedRow.Statement (.skp x) := fun _ =>
  ⟨23, _, rfl, hits_op_nn rfl (fieldOp_packNibbles _ _ _ _) (fieldNN_packNibbles _ _ _ _),
    by simp [encodeWord]⟩

theorem EncodedRow.sknp (x : Reg) : EncodedRow.Statement (.sknp x) := fun _ =>
  ⟨24, _, rfl, hits_op_nn rfl (fieldOp_packNibbles _ _ _ _) (fieldNN_packNibbles _ _ _ _),
    by simp [encodeWord]⟩

theorem EncodedRow.ldVxDt (x : Reg) : EncodedRow.Statement (.ldVxDt x) := fun _ =>
  ⟨25, _, rfl, hits_op_nn rfl (fieldOp_packNibbles _ _ _ _) (fieldNN_packNibbles _ _ _ _),
    by simp [encodeWord]⟩

theorem EncodedRow.ldVxK (x : Reg) : EncodedRow.Statement (.ldVxK x) := fun _ =>
  ⟨26, _, rfl, hits_op_nn rfl (fieldOp_packNibbles _ _ _ _) (fieldNN_packNibbles _ _ _ _),
    by simp [encodeWord]⟩

theorem EncodedRow.ldDtVx (x : Reg) : EncodedRow.Statement (.ldDtVx x) := fun _ =>
  ⟨27, _, rfl, hits_op_nn rfl (fieldOp_packNibbles _ _ _ _) (fieldNN_packNibbles _ _ _ _),
    by simp [encodeWord]⟩

theorem EncodedRow.ldStVx (x : Reg) : EncodedRow.Statement (.ldStVx x) := fun _ =>
  ⟨28, _, rfl, hits_op_nn rfl (fieldOp_packNibbles _ _ _ _) (fieldNN_packNibbles _ _ _ _),
    by simp [encodeWord]⟩

theorem EncodedRow.addI (x : Reg) : EncodedRow.Statement (.addI x) := fun _ =>
  ⟨29, _, rfl, hits_op_nn rfl (fieldOp_packNibbles _ _ _ _) (fieldNN_packNibbles _ _ _ _),
    by simp [encodeWord]⟩

theorem EncodedRow.ldF (x : Reg) : EncodedRow.Statement (.ldF x) := fun _ =>
  ⟨30, _, rfl, hits_op_nn rfl (fieldOp_packNibbles _ _ _ _) (fieldNN_packNibbles _ _ _ _),
    by simp [encodeWord]⟩

theorem EncodedRow.ldB (x : Reg) : EncodedRow.Statement (.ldB x) := fun _ =>
  ⟨31, _, rfl, hits_op_nn rfl (fieldOp_packNibbles _ _ _ _) (fieldNN_packNibbles _ _ _ _),
    by simp [encodeWord]⟩

theorem EncodedRow.storeRegs (x : Reg) : EncodedRow.Statement (.storeRegs x) := fun _ =>
  ⟨32, _, rfl, hits_op_nn rfl (fieldOp_packNibbles _ _ _ _) (fieldNN_packNibbles _ _ _ _),
    by simp [encodeWord]⟩

theorem EncodedRow.loadRegs (x : Reg) : EncodedRow.Statement (.loadRegs x) := fun _ =>
  ⟨33, _, rfl, hits_op_nn rfl (fieldOp_packNibbles _ _ _ _) (fieldNN_packNibbles _ _ _ _),
    by simp [encodeWord]⟩

end Sys2Proof.Laws
end

