-- ==== Sys2Proof/Laws/Step.lean ====
section
/-!
SUPPORT. What one step can do: which event it delivers, and the five things an engine cycle can be.
-/

namespace Sys2Proof.Machine

/-- A step delivers the pending event to the state without it. -/
theorem step_eq_deliver (s : State) : step s = deliver s.pendingEvent s.popEvent := by
  rcases h : s.events with _ | ⟨e, rest⟩
  · have hp : s.popEvent = s := by unfold State.popEvent; rw [h]; cases s; simp_all
    rw [hp]; simp [step, nextEvent, State.pendingEvent, h, deliver]
  · simp [step, nextEvent, State.pendingEvent, State.popEvent, h]

theorem step_of_cycle {s : State} (h : s.pendingEvent = .cycle) : step s = cycle s.popEvent := by
  rw [step_eq_deliver, h]; rfl

theorem cycle_of_stopped {s : State} (h : s.runState = .stopped) : cycle s = .next s := by simp [cycle, h]

theorem cycle_of_stopReq {s : State} (h : s.runState ≠ .stopped) (hs : s.stopReq = true) : cycle s = .next s.endRun := by
  cases hr : s.runState <;> simp_all [cycle]

theorem cycle_of_paused {s : State} (h : s.runState = .paused) (hs : s.stopReq = false) : cycle s = .next s := by
  simp [cycle, h, hs]

theorem cycle_of_running {s : State} (h : s.runState = .running) (hs : s.stopReq = false) : cycle s = runInstruction s := by
  simp [cycle, h, hs]

theorem canFetch_iff (s : State) : s.canFetch = true ↔ s.pc.toNat + 1 < 4096 := by simp [State.canFetch]

/-- The reported address is the first of the two that is not in memory (R92). -/
theorem toNat_fetchFaultAddress (s : State) :
    s.fetchFaultAddress.toNat = if 4096 ≤ s.pc.toNat then s.pc.toNat else s.pc.toNat + 1 := by
  have := s.pc.isLt
  rw [State.fetchFaultAddress, BitVec.toNat_ofNat]
  split <;> omega

/-- A word the decoder refuses is reported as itself. -/
theorem decodeWord_error {w : Word} {e : Reject} (h : decodeWord w = .error e) : e = .unknown w := by
  unfold decodeWord at h; split at h <;> cases h; rfl

theorem runInstruction_of_outside {s : State} (h : 4096 ≤ s.pc.toNat + 1) :
    runInstruction s = .next (s.raise (.addressOutOfRange s.fetchFaultAddress) 0) := by
  have : s.canFetch = false := by rw [← Bool.not_eq_true, canFetch_iff]; omega
  simp [runInstruction, this]

theorem runInstruction_of_ok {s : State} (h : s.pc.toNat + 1 < 4096) {i : Instr} (hd : decodeWord s.fetchedWord = .ok i) :
    runInstruction s = executeAndEmit i s := by
  simp [runInstruction, (canFetch_iff s).2 h, hd]

theorem runInstruction_of_error {s : State} (h : s.pc.toNat + 1 < 4096) {e : Reject}
    (hd : decodeWord s.fetchedWord = .error e) : runInstruction s = .next (s.raise .invalidOpcode s.fetchedWord) := by
  simp [runInstruction, (canFetch_iff s).2 h, hd]

theorem executeAndEmit_next {i : Instr} {s t : State} (h : exec i s = .next t) :
    executeAndEmit i s = .next t.emitSnapshot := by simp [executeAndEmit, h]

/-- What an engine cycle that answers a next state did (R90 to R97). -/
theorem cycle_cases {s t : State} (h : cycle s = .next t) :
    ((s.runState = .stopped ∨ (s.runState = .paused ∧ s.stopReq = false)) ∧ t = s) ∨
    (s.runState ≠ .stopped ∧ s.stopReq = true ∧ t = s.endRun) ∨
    (s.runState = .running ∧ s.stopReq = false ∧ 4096 ≤ s.pc.toNat + 1 ∧
      t = s.raise (.addressOutOfRange s.fetchFaultAddress) 0) ∨
    (s.runState = .running ∧ s.stopReq = false ∧ s.pc.toNat + 1 < 4096 ∧ (∃ e, decodeWord s.fetchedWord = .error e) ∧
      t = s.raise .invalidOpcode s.fetchedWord) ∨
    (s.runState = .running ∧ s.stopReq = false ∧ s.pc.toNat + 1 < 4096 ∧
      ∃ i u, decodeWord s.fetchedWord = .ok i ∧ exec i s = .next u ∧ t = u.emitSnapshot) := by
  by_cases hs : s.runState = .stopped
  · rw [cycle_of_stopped hs] at h; cases h; exact .inl ⟨.inl hs, rfl⟩
  by_cases hq : s.stopReq = true
  · rw [cycle_of_stopReq hs hq] at h; cases h; exact .inr (.inl ⟨hs, hq, rfl⟩)
  rw [Bool.not_eq_true] at hq
  by_cases hp : s.runState = .paused
  · rw [cycle_of_paused hp hq] at h; cases h; exact .inl ⟨.inr ⟨hp, hq⟩, rfl⟩
  have hr : s.runState = .running := by cases hx : s.runState <;> simp_all
  rw [cycle_of_running hr hq] at h
  refine .inr (.inr ?_)
  by_cases hf : s.pc.toNat + 1 < 4096
  · refine .inr ?_
    rcases hd : decodeWord s.fetchedWord with e | i
    · rw [runInstruction_of_error hf hd] at h; cases h
      exact .inl ⟨hr, hq, hf, ⟨e, rfl⟩, rfl⟩
    · rw [runInstruction_of_ok hf hd] at h
      refine .inr ⟨hr, hq, hf, i, ?_⟩
      unfold executeAndEmit at h
      rcases hx : exec i s with u | f | r <;> rw [hx] at h <;> cases h
      exact ⟨u, rfl, rfl, rfl⟩
  · rw [runInstruction_of_outside (by omega)] at h; cases h
    exact .inl ⟨hr, hq, by omega, rfl⟩

/-! ### The state without its delivered event -/

@[simp] theorem State.popEvent_v (s : State) : s.popEvent.v = s.v := rfl
@[simp] theorem State.popEvent_pc (s : State) : s.popEvent.pc = s.pc := rfl
@[simp] theorem State.popEvent_index (s : State) : s.popEvent.index = s.index := rfl
@[simp] theorem State.popEvent_sp (s : State) : s.popEvent.sp = s.sp := rfl
@[simp] theorem State.popEvent_stack (s : State) : s.popEvent.stack = s.stack := rfl
@[simp] theorem State.popEvent_dt (s : State) : s.popEvent.dt = s.dt := rfl
@[simp] theorem State.popEvent_st (s : State) : s.popEvent.st = s.st := rfl
@[simp] theorem State.popEvent_mem (s : State) : s.popEvent.mem = s.mem := rfl
@[simp] theorem State.popEvent_fb (s : State) : s.popEvent.fb = s.fb := rfl
@[simp] theorem State.popEvent_dirty (s : State) : s.popEvent.dirty = s.dirty := rfl
@[simp] theorem State.popEvent_runState (s : State) : s.popEvent.runState = s.runState := rfl
@[simp] theorem State.popEvent_stopReq (s : State) : s.popEvent.stopReq = s.stopReq := rfl
@[simp] theorem State.popEvent_runDone (s : State) : s.popEvent.runDone = s.runDone := rfl
@[simp] theorem State.popEvent_fault (s : State) : s.popEvent.fault = s.fault := rfl
@[simp] theorem State.popEvent_key (s : State) : s.popEvent.key = s.key := rfl
@[simp] theorem State.popEvent_rnd (s : State) : s.popEvent.rnd = s.rnd := rfl
@[simp] theorem State.popEvent_cfg (s : State) : s.popEvent.cfg = s.cfg := rfl
@[simp] theorem State.popEvent_trace (s : State) : s.popEvent.trace = s.trace := rfl
@[simp] theorem State.popEvent_reg (s : State) (r : Reg) : s.popEvent.reg r = s.reg r := rfl
@[simp] theorem State.popEvent_byteAt (s : State) (a : Nat) : s.popEvent.byteAt a = s.byteAt a := rfl
@[simp] theorem State.popEvent_fetchedWord (s : State) : s.popEvent.fetchedWord = s.fetchedWord := rfl

theorem changesOnly_popEvent (s : State) : ChangesOnly (· = .events) s s.popEvent := by
  intro p hp; cases p <;> first | rfl | exact absurd rfl hp

theorem changesOnly_emitSnapshot (s : State) : ChangesOnly (fun p => p = .dirty ∨ p = .trace) s s.emitSnapshot := by
  unfold State.emitSnapshot
  intro p hp
  split <;> cases p <;> first | rfl | exact absurd (by simp) hp

@[simp] theorem emitSnapshot_raise (s : State) (c : FaultCause) (w : Word) :
    (s.raise c w).emitSnapshot = s.raise c w := by simp [State.emitSnapshot]

@[simp] theorem emitSnapshot_raiseAt (s : State) (c : FaultCause) : (s.raiseAt c).emitSnapshot = s.raiseAt c :=
  emitSnapshot_raise s c _

theorem emitSnapshot_of_clean {s : State} (h : s.dirty = false) : s.emitSnapshot = s := by simp [State.emitSnapshot, h]

theorem changesOnly_endRun (s : State) : ChangesOnly (fun p => p = .runState ∨ p = .runDone) s s.endRun := by
  intro p hp; cases p <;> first | rfl | exact absurd (by simp) hp

theorem changesOnly_tick (s : State) : ChangesOnly (fun p => p = .dt ∨ p = .st) s s.tick := by
  intro p hp; cases p <;> first | rfl | exact absurd (by simp) hp

@[simp] theorem toNat_countDown (b : Byte) : (countDown b).toNat = b.toNat - 1 := by
  unfold countDown
  split
  · next h => subst h; rfl
  · next h =>
    have : b.toNat ≠ 0 := fun e => h (BitVec.eq_of_toNat_eq e)
    have := b.isLt
    rw [BitVec.toNat_sub]; simp; omega

/-! ### The frame of a whole step -/

/-- What an event other than a cycle and a reset may change (R45, R185). -/
def eventTouches (e : Event) (s : State) (p : Part) : Prop :=
  (e = .tick ∧ (p = .dt ∨ p = .st)) ∨ p = .runState ∨ p = .stopReq ∨ p = .key ∨ p = .rnd ∨
    ∃ a d, e = .load a d ∧ p = .byte a.toNat ∧ s.fresh = true ∧ 0x200 ≤ a.toNat

theorem changesOnly_deliver {e : Event} {s t : State} (he : e ≠ .cycle) (hr : e ≠ .reset) (h : deliver e s = .next t) :
    ChangesOnly (eventTouches e s) s t := by
  cases e
  case cycle => exact absurd rfl he
  case reset => exact absurd rfl hr
  case tick => cases h; exact (changesOnly_tick s).mono (by simp [eventTouches])
  case load a d =>
    cases h
    show ChangesOnly _ s (s.loadByte a d)
    unfold State.loadByte
    split
    · next hx => exact (changesOnly_writeByte s _ _).mono (by simp [eventTouches]; exact hx)
    · exact ChangesOnly.refl _ _
  case stop | keyChange | rndChange =>
    cases h
    intro p hp; cases p <;> first | rfl | exact absurd (by simp [eventTouches]) hp
  case start =>
    cases h
    show ChangesOnly _ s s.start
    unfold State.start
    split
    · intro p hp; cases p <;> first | rfl | exact absurd (by simp [eventTouches]) hp
    · exact ChangesOnly.refl _ _
  case pause =>
    cases h
    show ChangesOnly _ s s.pause
    unfold State.pause
    split
    · intro p hp; cases p <;> first | rfl | exact absurd (by simp [eventTouches]) hp
    · exact ChangesOnly.refl _ _
  case resume =>
    cases h
    show ChangesOnly _ s s.resume
    unfold State.resume
    split
    · intro p hp; cases p <;> first | rfl | exact absurd (by simp [eventTouches]) hp
    · exact ChangesOnly.refl _ _

/-- A step that is not a reset executes an instruction that does not fault, within its parts, or changes only run
control, the fault record, the inputs and the parts of its event. -/
theorem step_frame {s t : State} (h : step s = .next t) (hr : s.pendingEvent ≠ .reset) :
    (∃ i u, s.Ready ∧ s.At i ∧ exec i s.popEvent = .next u ∧ t = u.emitSnapshot ∧
      ChangesOnly (touches s i) s.popEvent u) ∨
    ChangesOnly (fun p => p = .runDone ∨ p = .fault ∨ p = .events ∨ eventTouches s.pendingEvent s p) s t := by
  have hpop : ∀ p, p = .events → p = .runDone ∨ p = .fault ∨ p = .events ∨ eventTouches s.pendingEvent s p :=
    fun p hp => .inr (.inr (.inl hp))
  by_cases hc : s.pendingEvent = .cycle
  · rw [step_of_cycle hc] at h
    have fr : ∀ c w, ChangesOnly (fun p => p = .runDone ∨ p = .fault ∨ p = .events ∨ eventTouches s.pendingEvent s p) s
        (s.popEvent.raise c w) := fun c w =>
      (changesOnly_popEvent s).then (faulted_raise s.popEvent c w).2.2.2 hpop (by simp [eventTouches])
    rcases cycle_cases h with ⟨_, rfl⟩ | ⟨_, _, rfl⟩ | ⟨_, _, _, rfl⟩ | ⟨_, _, _, _, rfl⟩ | ⟨hrun, hq, hf, i, u, hd, hx, rfl⟩
    · exact .inr ((changesOnly_popEvent s).mono hpop)
    · exact .inr ((changesOnly_popEvent s).then (changesOnly_endRun _) hpop (by simp [eventTouches]))
    · exact .inr (fr _ _)
    · exact .inr (fr _ _)
    · rcases exec_cases hx with ⟨c, _, rfl⟩ | hu
      · rw [emitSnapshot_raiseAt]; exact .inr (fr _ _)
      · exact .inl ⟨i, u, ⟨hc, hrun, hq, hf⟩, hd, hx, rfl, hu⟩
  · rw [step_eq_deliver] at h
    exact .inr ((changesOnly_popEvent s).then (changesOnly_deliver hc hr h) hpop fun p hp => .inr (.inr (.inr hp)))

end Sys2Proof.Machine
end

