-- ==== Sys2Proof/Tests/Slice0.lean ====
section
/-!
SUPPORT. Tests: ill-formed terms refused, words written out from the spec decoded, one step of each instruction from the
vectors of 95_test_vectors.md (named T<n>), and a witness for the hypotheses of every obligation that has some.
-/

namespace Sys2Proof.Tests

open Sys2Proof Sys2Proof.Machine

/-- The reset state with `w` at 0x200, about to be executed. -/
def at0 (w : Word) : State := State.reset.placeWord w

/-- The state after one step. -/
def one (s : State) : State := (runSteps 1 s).getD s

/-- The same with registers set. -/
def withRegs (s : State) (l : List (Reg × Byte)) : State := l.foldl (fun s p => s.setReg p.1 p.2) s

/-- One step of the word at 0x200 with registers set. -/
def run (w : Word) (l : List (Reg × Byte)) : State := one (withRegs (at0 w) l)

/-- The same with `I` set. -/
def runI (w : Word) (l : List (Reg × Byte)) (i : Word) : State := one { withRegs (at0 w) l with index := i }

/-- One step of a draw with a sprite at 0x300, over a screen. -/
def draw (w : Word) (sprite : List Byte) (l : List (Reg × Byte)) (f : Frame) : State :=
  one { withRegs ((at0 w).storeBytes 0x300 sprite) l with index := 0x300, fb := f }

/-- A 16-bit row of the table, by the host's entry. -/
def decodeTable16 (w : Nat) : Option Instr := decodeTableWord 16 w

/-! ### WellFormed refuses ill-formed terms -/

theorem test_wf_drw_row_count : (Instr.drw 0 0 16).wellFormed = false ∧ (Instr.drw 0 0 15).wellFormed = true := by decide
theorem test_wf_capacity_low :
    (Config.wellFormed ⟨11, 0x50⟩) = false ∧ (Config.wellFormed ⟨12, 0x50⟩) = true := by decide
theorem test_wf_capacity_high : (Config.wellFormed ⟨17, 0x50⟩) = false ∧ Config.default.wellFormed = true := by decide
theorem test_wf_font_base :
    (Config.wellFormed ⟨16, 0x1B1⟩) = false ∧ (Config.wellFormed ⟨16, 0x1B0⟩) = true := by decide
theorem test_wf_rom_too_long : romWellFormed (List.replicate 3585 0) = false := by
  rw [romWellFormed, List.length_replicate]; decide
theorem test_wf_rom_longest : romWellFormed (List.replicate 3584 0) = true := by
  rw [romWellFormed, List.length_replicate]; decide

/-! ### Decoding: one word of every row, from the patterns of R76; invalid words of 2.6 -/

theorem test_decode_low :
    [(0x00E0 : Word), 0x00EE, 0x1ABC, 0x2ABC, 0x332A, 0x432A, 0x5120, 0x6AFF, 0x7105].map decodeWord =
      [.ok (.cls),
       .ok (.ret),
       .ok (.jp 0xABC),
       .ok (.call 0xABC),
       .ok (.seImm 3 0x2A),
       .ok (.sneImm 3 0x2A),
       .ok (.seReg 1 2),
       .ok (.ldImm 10 0xFF),
       .ok (.addImm 1 0x05)] := by rfl
theorem test_encode_low :
    [(.cls : Instr),
     .ret,
     .jp 0xABC,
     .call 0xABC,
     .seImm 3 0x2A,
     .sneImm 3 0x2A,
     .seReg 1 2,
     .ldImm 10 0xFF,
     .addImm 1 0x05].map encodeWord =
      [0x00E0, 0x00EE, 0x1ABC, 0x2ABC, 0x332A, 0x432A, 0x5120, 0x6AFF, 0x7105] := by decide
theorem test_decode_alu :
    [(0x8120 : Word), 0x8121, 0x8122, 0x8123, 0x8124, 0x8125, 0x8AB6, 0x8127, 0x812E, 0x9120].map decodeWord =
      [.ok (.ldReg 1 2),
       .ok (.orReg 1 2),
       .ok (.andReg 1 2),
       .ok (.xorReg 1 2),
       .ok (.addReg 1 2),
       .ok (.subReg 1 2),
       .ok (.shr 10 11),
       .ok (.subn 1 2),
       .ok (.shl 1 2),
       .ok (.sneReg 1 2)] := by rfl
theorem test_encode_alu :
    [(.ldReg 1 2 : Instr),
     .orReg 1 2,
     .andReg 1 2,
     .xorReg 1 2,
     .addReg 1 2,
     .subReg 1 2,
     .shr 10 11,
     .subn 1 2,
     .shl 1 2,
     .sneReg 1 2].map encodeWord =
      [0x8120, 0x8121, 0x8122, 0x8123, 0x8124, 0x8125, 0x8AB6, 0x8127, 0x812E, 0x9120] := by decide
theorem test_decode_high :
    [(0xA2F0 : Word), 0xB2F0, 0xC10F, 0xDABC, 0xE29E, 0xE2A1, 0xF307, 0xF40A, 0xF315, 0xF318,
     0xF21E, 0xF329, 0xF033, 0xF255, 0xFF65].map decodeWord =
      [.ok (.ldI 0x2F0),
       .ok (.jpV0 0x2F0),
       .ok (.rnd 1 0x0F),
       .ok (.drw 10 11 12),
       .ok (.skp 2),
       .ok (.sknp 2),
       .ok (.ldVxDt 3),
       .ok (.ldVxK 4),
       .ok (.ldDtVx 3),
       .ok (.ldStVx 3),
       .ok (.addI 2),
       .ok (.ldF 3),
       .ok (.ldB 0),
       .ok (.storeRegs 2),
       .ok (.loadRegs 15)] := by rfl
theorem test_encode_high :
    [(.ldI 0x2F0 : Instr),
     .jpV0 0x2F0,
     .rnd 1 0x0F,
     .drw 10 11 12,
     .skp 2,
     .sknp 2,
     .ldVxDt 3,
     .ldVxK 4,
     .ldDtVx 3,
     .ldStVx 3,
     .addI 2,
     .ldF 3,
     .ldB 0,
     .storeRegs 2,
     .loadRegs 15].map encodeWord =
      [0xA2F0, 0xB2F0, 0xC10F, 0xDABC, 0xE29E, 0xE2A1, 0xF307, 0xF40A, 0xF315, 0xF318,
       0xF21E, 0xF329, 0xF033, 0xF255, 0xFF65] := by decide
theorem test_decode_invalid :
    [0x0000, 0x00E1, 0x00FF, 0x0123, 0x5121, 0x8128, 0x812D, 0x812F, 0x9121, 0xE29F,
     0xE2A0, 0xE200, 0xF200, 0xF230, 0xF275, 0xF285, 0xF2FF].map decodeTable16 =
      List.replicate 17 none := by decide
theorem test_decode_bytes_high_first : decode [0xA2, 0xF0, 0x60] = .ok (.ldI 0x2F0, [0x60]) := by rfl
theorem test_decode_truncated : decode [0xA2] = .error .truncated := by rfl
theorem test_withFetchWord_runs : (one (State.reset.withFetchWord 16 0x6AFF)).reg 10 = 0xFF := by decide

/-! ### One step, from the vectors -/

theorem test_T10_se_imm :
    (run 0x332A [(3, 0x2A)]).pc = 0x204 ∧
    (run 0x332A [(3, 0x2B)]).pc = 0x202 := by decide
theorem test_T12_sne_imm :
    (run 0x432A [(3, 0x2A)]).pc = 0x202 ∧
    (one (at0 0x432A)).pc = 0x204 := by decide
theorem test_T14_se_reg :
    (run 0x5120 [(1, 7), (2, 7)]).pc = 0x204 ∧
    (run 0x5120 [(1, 7), (2, 8)]).pc = 0x202 := by decide
theorem test_T16_sne_reg_values :
    (run 0x9120 [(1, 7), (2, 7)]).pc = 0x202 ∧
    (run 0x9120 [(1, 7), (2, 8)]).pc = 0x204 := by decide
theorem test_T20_jp :
    (one (at0 0x1ABC)).pc = 0xABC := by decide
theorem test_T22_call :
    (one (at0 0x2ABC)).stack[0]? = some 0x0202 ∧
    (one (at0 0x2ABC)).sp = 1 := by decide
theorem test_T23_call_overflow :
    (one ({ at0 0x2ABC with sp := 16 })).fault =
      some ⟨.stackOverflow, 0x200, 0x2ABC⟩ := by decide
theorem test_T24_ret_underflow :
    (one (at0 0x00EE)).fault =
      some ⟨.stackUnderflow, 0x200, 0x00EE⟩ := by decide
theorem test_T25_ret :
    (one ({ at0 0x00EE with sp := 2, stack := (State.reset.stack.set 1 0x0ABC) })).pc = 0x0ABC := by decide
theorem test_T26_jp_v0 :
    (run 0xB300 [(0, 0x10)]).pc = 0x310 := by decide
theorem test_T27_jp_v0_not_masked :
    (run 0xBFFF [(0, 0xFF)]).pc = 0x10FE := by decide
theorem test_T32_ld_imm :
    (one (at0 0x6AFF)).reg 10 = 0xFF := by decide
theorem test_T33_add_imm :
    (run 0x7105 [(1, 0xFE)]).reg 1 = 0x03 ∧
    (run 0x7105 [(1, 0xFE)]).reg 15 = 0 := by decide
theorem test_T35_ld_reg :
    (run 0x8120 [(2, 0x7C)]).reg 1 = 0x7C := by decide
theorem test_T36_or :
    (run 0x8121 [(1, 0x0F), (2, 0xF0), (15, 0x55)]).reg 1 = 0xFF ∧
    (run 0x8121 [(1, 0x0F), (2, 0xF0), (15, 0x55)]).reg 15 = 0x55 := by decide
theorem test_T37_and :
    (run 0x8122 [(1, 0x3C), (2, 0x0F), (15, 0x55)]).reg 1 = 0x0C ∧
    (run 0x8122 [(1, 0x3C), (2, 0x0F), (15, 0x55)]).reg 15 = 0x55 := by decide
theorem test_T38_xor :
    (run 0x8123 [(1, 0xFF), (2, 0x0F), (15, 0x55)]).reg 1 = 0xF0 ∧
    (run 0x8123 [(1, 0xFF), (2, 0x0F), (15, 0x55)]).reg 15 = 0x55 := by decide
theorem test_T41_add_reg :
    (run 0x8124 [(1, 0xFF), (2, 1)]).reg 1 = 0x00 ∧
    (run 0x8124 [(1, 0xFF), (2, 1)]).reg 15 = 1 := by decide
theorem test_T43_flag_wins :
    (run 0x8F14 [(15, 0xFF), (1, 1)]).reg 15 = 1 := by decide
theorem test_T46_sub :
    (run 0x8125 [(1, 0), (2, 1)]).reg 1 = 0xFF ∧
    (run 0x8125 [(1, 0), (2, 1)]).reg 15 = 0 := by decide
theorem test_T47_sub_equal :
    (run 0x8125 [(1, 0x33), (2, 0x33)]).reg 1 = 0x00 ∧
    (run 0x8125 [(1, 0x33), (2, 0x33)]).reg 15 = 1 := by decide
theorem test_T49_shr :
    (run 0x8106 [(1, 5)]).reg 1 = 0x02 ∧
    (run 0x8106 [(1, 5)]).reg 15 = 1 := by decide
theorem test_T50_shr_ignores_y :
    (run 0x8126 [(1, 4), (2, 0xFF)]).reg 1 = 0x02 ∧
    (run 0x8126 [(1, 4), (2, 0xFF)]).reg 15 = 0 := by decide
theorem test_T52_subn :
    (run 0x8127 [(1, 0x20), (2, 0x10)]).reg 1 = 0xF0 ∧
    (run 0x8127 [(1, 0x20), (2, 0x10)]).reg 15 = 0 := by decide
theorem test_T53_subn :
    (run 0x8127 [(1, 0x10), (2, 0x20)]).reg 1 = 0x10 ∧
    (run 0x8127 [(1, 0x10), (2, 0x20)]).reg 15 = 1 := by decide
theorem test_T54_shl :
    (run 0x810E [(1, 0x81)]).reg 1 = 0x02 ∧
    (run 0x810E [(1, 0x81)]).reg 15 = 1 := by decide
theorem test_T55_shl_ignores_y :
    (run 0x812E [(1, 0x7F), (2, 0x80)]).reg 1 = 0xFE ∧
    (run 0x812E [(1, 0x7F), (2, 0x80)]).reg 15 = 0 := by decide
theorem test_T56_rnd :
    (one ({ at0 0xC10F with rnd := 0xB7 })).reg 1 = 0x07 := by decide
theorem test_T70_ld_i :
    (one (at0 0xA2F0)).index = 0x02F0 := by decide
theorem test_T72_add_i :
    (runI 0xF21E [(2, 1)] 0x0FFF).index = 0x1000 ∧
    (runI 0xF21E [(2, 1)] 0x0FFF).reg 15 = 0 := by decide
theorem test_T75_ld_f :
    (run 0xF329 [(3, 0x1A)]).index = 0x0082 := by decide
theorem test_T77_bcd :
    [0x300, 0x301, 0x302].map (runI 0xF033 [(0, 0xFE)] 0x0300).byteAt =
      [0x02, 0x05, 0x04] := by decide
theorem test_T80_bcd_out_of_range :
    (runI 0xF033 [(0, 0xFF)] 0x0FFE).fault =
      some ⟨.addressOutOfRange 0x1000, 0x200, 0xF033⟩ := by decide
theorem test_T81_store_regs :
    [0x400, 0x401, 0x402, 0x403].map (runI 0xF255 [(0, 0x11), (1, 0x22), (2, 0x33)] 0x0400).byteAt =
      [0x11, 0x22, 0x33, 0x00] := by decide
theorem test_T83_store_regs_no_partial_write :
    (runI 0xF155 [(0, 0xAB), (1, 0xCD)] 0x0FFF).byteAt 0xFFF = 0 ∧
    (runI 0xF155 [(0, 0xAB), (1, 0xCD)] 0x0FFF).pc = 0x200 := by decide
theorem test_T86_load_font :
    (List.range 5).map (fun k => (one ({ at0 0xF465 with index := 0x0050 })).reg (Fin.ofNat 16 k)) =
      [0xF0, 0x90, 0x90, 0x90, 0xF0] := by decide
theorem test_T87_load_regs_out_of_range :
    (one ({ at0 0xFF65 with index := 0x0FF1 })).fault =
      some ⟨.addressOutOfRange 0x1000, 0x200, 0xFF65⟩ := by decide
theorem test_T40_drw :
    (draw 0xD011 [0xF0] [(0, 2), (1, 1)] blankFrame).fb[1] = 0x3C ∧
    (draw 0xD011 [0xF0] [(0, 2), (1, 1)] blankFrame).reg 15 = 0 := by decide
theorem test_T92_drw_wraps :
    (draw 0xD012 [0xFF, 0xFF] [(0, 62), (1, 31)] blankFrame).fb[31] = 0xC00000000000003F ∧
    (draw 0xD012 [0xFF, 0xFF] [(0, 62), (1, 31)] blankFrame).fb[0] = 0xC00000000000003F := by decide
theorem test_T97_drw_collision :
    (draw 0xD011 [0xF0] [(0, 2), (1, 1)] (blankFrame.set 1 0x8)).fb[1] = 0x34 ∧
    (draw 0xD011 [0xF0] [(0, 2), (1, 1)] (blankFrame.set 1 0x8)).reg 15 = 1 := by decide
theorem test_T99_drw_old_vf :
    (draw 0xDF11 [0x80] [(15, 5), (1, 3)] blankFrame).fb[3] = 0x20 ∧
    (draw 0xDF11 [0x80] [(15, 5), (1, 3)] blankFrame).reg 15 = 0 := by decide
theorem test_T103_cls :
    (one { at0 0x00E0 with fb := blankFrame.set 5 0xFF }).fb = blankFrame ∧
    (one { at0 0x00E0 with fb := blankFrame.set 5 0xFF }).trace = [blankFrame] := by decide
theorem test_T60_skp :
    (one ({ withRegs (at0 0xE29E) [(2, 5)] with key := 0x0020 })).pc = 0x204 ∧
    (one ({ withRegs (at0 0xE29E) [(2, 5)] with key := 0xFFDF })).pc = 0x202 := by decide
theorem test_T63_sknp :
    (run 0xE2A1 [(2, 0x35)]).pc = 0x204 ∧
    (one ({ withRegs (at0 0xE2A1) [(2, 5)] with key := 0x0020 })).pc = 0x202 := by decide
theorem test_T110_ld_vx_dt :
    (one ({ at0 0xF307 with dt := 0x2C })).reg 3 = 0x2C := by decide
theorem test_T111_ld_dt_vx :
    (run 0xF315 [(3, 0x3C)]).dt = 0x3C := by decide
theorem test_T112_ld_st_vx :
    (run 0xF318 [(3, 2)]).st = 2 ∧
    (run 0xF318 [(3, 2)]).outputs.soundOn = true := by decide
theorem test_T113_key_wait : one (at0 0xF40A) = at0 0xF40A := by decide
theorem test_T114_lowest_key :
    (one ({ at0 0xF40A with key := 0x0140 })).reg 4 = 0x06 ∧
    (one ({ at0 0xF40A with key := 0x0140 })).pc = 0x202 := by decide
theorem test_T125_invalid :
    (one (at0 0xE2A0)).fault =
      some ⟨.invalidOpcode, 0x200, 0xE2A0⟩ := by decide
theorem test_T140_cycle_when_stopped : one State.reset = State.reset := by decide
theorem test_T30_fetch_out_of_range :
    (one { at0 0x1FFF with pc := 0xFFF }).fault =
      some ⟨.addressOutOfRange 0x1000, 0xFFF, 0⟩ := by decide
theorem test_T147_load_below_rom :
    (one { State.reset with events := [.load 0x1FF 0x55] }).byteAt 0x1FF = 0 := by decide
theorem test_T146_tick_when_paused :
    (one { State.reset with runState := .paused, dt := 3, events := [.tick] }).dt = 2 := by decide
theorem test_reset_memory_canonical : Memory.wf State.reset.cfg.fontBase State.reset.mem = true := rfl

/-! ### Witnesses: the hypotheses of each obligation, met together -/

/-- A state that fetches next, from its four conditions. -/
theorem ready_of {s : State} (h : s.pendingEvent = .cycle) (hr : s.runState = .running) (hs : s.stopReq = false)
    (hp : s.pc.toNat + 1 < 4096) : s.Ready := ⟨h, hr, hs, hp⟩

/-- A word placed at reset is about to run. -/
theorem ready_at0 (w : Word) : (at0 w).Ready := by
  refine ready_of rfl rfl rfl ?_
  show (if State.reset.canFetch then State.reset.pc else 0x200).toNat + 1 < 4096
  decide


/-- Storing bytes keeps the invariant. -/
theorem inv_storeBytes {s : State} (h : s.Inv) (a : Nat) (bs : List Byte) : (s.storeBytes a bs).Inv := by
  have hw := State.wf_storeBytes h.memCanonical a bs
  rw [State.storeBytes_eq]
  exact ⟨h.cfgAllowed, h.spBounded, h.stackSized, h.entriesBounded, h.pcBounded, hw, h.notDirty, h.doneStopped,
    h.faultFinal, h.faultAddress⟩

/-- The state after reset, `Running`. -/
theorem inv_running : ({ State.reset with runState := .running } : State).Inv := by
  refine ⟨by decide, by decide, by decide, ?_, by decide, by decide, rfl, ?_, ?_, ?_⟩
  · exact fun a ha => by simp [State.reset, State.resetOf] at ha; simp [ha.2]
  · exact fun h => absurd h (by decide)
  · exact fun f h => absurd h (by simp [State.reset, State.resetOf])
  · exact fun f a h => absurd h (by simp [State.reset, State.resetOf])

/-- A state from reset with a word placed meets the invariant. -/
theorem inv_at0 (w : Word) : (at0 w).Inv :=
  inv_storeBytes (s := { State.reset with runState := .running }) inv_running 0x200 [highByte w, lowByte w]

/-- A step that answers a next state answers `one`. -/
theorem step_one {s : State} (h : (runSteps 1 s).isSome = true) : step s = .next (one s) := by
  unfold one
  rw [runSteps] at h ⊢
  cases hs : step s with
  | next t => rfl
  | fault f => rw [hs] at h; cases h
  | refused r => rw [hs] at h; cases h

theorem test_hyp_DecodeAndEncodeAgree :
    (Instr.drw 1 2 15).wellFormed = true ∧ decodeWord 0xD12F = .ok (.drw 1 2 15) := ⟨rfl, rfl⟩

theorem test_hyp_NoWordMatchesTwoRows :
    ∃ r, opcodeTable[33]? = some r ∧ r.hits 0xFF65 = true := ⟨_, rfl, by decide⟩

/-- A well-sized stack, empty and full. -/
theorem test_hyp_ReturnPopsTheStack :
    State.reset.stack.length = State.reset.cfg.stackCapacity ∧ State.reset.sp = 0 ∧
      ({ State.reset with sp := 16 } : State).sp ≤ State.reset.cfg.stackCapacity := by decide

/-- One free entry, and none. -/
theorem test_hyp_CallPushesTheReturnAddress :
    State.reset.stack.length = State.reset.cfg.stackCapacity ∧
      ({ State.reset with sp := 15 } : State).sp < State.reset.cfg.stackCapacity ∧
      ({ State.reset with sp := 16 } : State).sp = State.reset.cfg.stackCapacity := by decide

/-- 2300 at 0x200 with 00EE at 0x300. -/
def callRet : State := (at0 0x2300).storeBytes 0x300 [0x00, 0xEE]

theorem test_hyp_CallThenReturnComesBack :
    callRet.Inv ∧ callRet.Ready ∧ callRet.events = [] ∧ callRet.At (.call 0x300) ∧
      callRet.sp < callRet.cfg.stackCapacity ∧ callRet.byteAt 0x300 = 0x00 ∧ callRet.byteAt 0x301 = 0xEE :=
  ⟨inv_storeBytes (inv_at0 _) _ _, ⟨rfl, rfl, rfl, by decide⟩, rfl, rfl, by decide, by decide, by decide⟩

theorem test_hyp_RandomByteIsMasked : ({ State.reset with rnd := 0xB7 } : State).rnd = 0xB7 := rfl

theorem test_hyp_IndexRegisterInstructions :
    State.reset.cfg.wellFormed = true ∧ Config.wellFormed ⟨12, 0x1B0⟩ = true := by decide

/-- The last address in range for three bytes, and the first out of range. -/
theorem test_hyp_DecimalDigitsAreStored :
    Memory.wf State.reset.cfg.fontBase State.reset.mem = true ∧
      ({ State.reset with index := 0x0FFD } : State).index.toNat + 2 < 4096 ∧
      4096 ≤ ({ State.reset with index := 0x0FFE } : State).index.toNat + 2 := by decide

theorem test_hyp_RegistersAreStored :
    Memory.wf State.reset.cfg.fontBase State.reset.mem = true ∧
      ({ State.reset with index := 0x0FF0 } : State).index.toNat + (15 : Reg).val < 4096 ∧
      4096 ≤ ({ State.reset with index := 0x0FF1 } : State).index.toNat + (15 : Reg).val ∧
      (15 : Reg) ≤ 15 := by decide

theorem test_hyp_RegistersAreLoaded :
    ({ State.reset with index := 0x0FF0 } : State).index.toNat + (15 : Reg).val < 4096 ∧
      4096 ≤ ({ State.reset with index := 0x0FF1 } : State).index.toNat + (15 : Reg).val := by decide

theorem test_hyp_ReportedAddressIsTheSmallestInvalid :
    outOfRange (0x0FFF : Word).toNat 2 = true ∧ outOfRange (0x2000 : Word).toNat 1 = true ∧
      outOfRange (0x0FFF : Word).toNat 1 = false := by decide

/-- F155 at 0x200 with `I` = 0x202, so that `V0`, `V1` land on the next word. -/
def storesNext : State := { withRegs (at0 0xF155) [(0, 0x12), (1, 0x0C)] with index := 0x202 }

theorem test_hyp_StoresAreFetchedNext :
    Memory.wf storesNext.cfg.fontBase storesNext.mem = true ∧ storesNext.Ready ∧ storesNext.At (.storeRegs 1) ∧
      storesNext.index.toNat + (1 : Reg).val < 4096 ∧ (0 : Reg) ≤ 1 ∧
      storesNext.index.toNat + (0 : Reg).val = storesNext.pc.toNat + 2 ∧
      storesNext.index.toNat + (1 : Reg).val = storesNext.pc.toNat + 3 :=
  ⟨by decide, ⟨rfl, rfl, rfl, by decide⟩, rfl, by decide, by decide, by decide, by decide⟩

theorem test_hyp_ClearMakesEveryPixelUnlit : (at0 0x00E0).Ready ∧ (at0 0x00E0).At .cls := ⟨ready_at0 _, rfl⟩

/-- A one-row sprite with its leftmost bit set, at column 0 of row 0, where a pixel is lit. -/
def spriteOnLit : State :=
  { (at0 0xD011).storeBytes 0x300 [0x80] with index := 0x300, fb := blankFrame.set 0 1 }

/-- The last sprite of 15 rows in range and the first out of it; no row at all beyond memory; a pixel both lit and
covered, and a screen with none. -/
theorem test_hyp_DrawTogglesTheSpritePixels :
    ¬ (0 < 15 ∧ 4096 ≤ ({ State.reset with index := 0x0FF1 } : State).index.toNat + 15 - 1) ∧
      (0 < 15 ∧ 4096 ≤ ({ State.reset with index := 0x0FF2 } : State).index.toNat + 15 - 1) ∧
      ¬ (0 < 0 ∧ 4096 ≤ ({ State.reset with index := 0x1000 } : State).index.toNat + 0 - 1) ∧
      (∃ px py, spriteOnLit.Lit px py ∧ SpriteCovers spriteOnLit 0 1 1 px py) ∧
      ¬ ∃ px py, State.reset.Lit px py ∧ SpriteCovers State.reset 0 1 1 px py := by
  refine ⟨by decide, by decide, by decide,
    ⟨0, 0, ?_, 0, 0, by decide, by decide, by decide, by decide, by decide⟩, ?_⟩
  · unfold State.Lit; decide
  · rintro ⟨px, py, h, -⟩
    simp [State.Lit, pixelAt, State.reset, State.resetOf] at h

/-- The same sprite on an empty screen. -/
def spriteOnBlank : State := { (at0 0xD011).storeBytes 0x300 [0x80] with index := 0x300 }

theorem test_hyp_SecondDrawRestoresTheScreen :
    (∃ t u, ¬ (0 < 1 ∧ 4096 ≤ spriteOnBlank.index.toNat + 1 - 1) ∧ exec (.drw 0 1 1) spriteOnBlank = .next t ∧
      exec (.drw 0 1 1) t = .next u ∧ (0 : Reg) ≠ VF ∧ (1 : Reg) ≠ VF) ∧
    (∃ t, exec (.drw 15 1 1) spriteOnBlank = .next t ∧ t.reg VF = spriteOnBlank.reg VF) ∧
    (∀ px py, SpriteCovers spriteOnBlank 0 1 1 px py → ¬ spriteOnBlank.Lit px py) ∧
    ∃ px py, SpriteCovers spriteOnBlank 0 1 1 px py := by
  refine ⟨⟨_, _, by decide, rfl, rfl, by decide, by decide⟩, ⟨_, rfl, by decide⟩, ?_,
    ⟨0, 0, 0, 0, by decide, by decide, by decide, by decide, by decide⟩⟩
  intro px py _ h
  have : spriteOnBlank.fb = Vector.replicate 32 0 := rfl
  simp [State.Lit, pixelAt, this] at h

/-- A step that draws, and one that does not run at all. -/
theorem test_hyp_SnapshotsFollowDrawing :
    ((at0 0x00E0).dirty = false ∧ (at0 0x00E0).runDone = false ∧ step (at0 0x00E0) = .next (one (at0 0x00E0)) ∧
      (at0 0x00E0).Ready ∧ (∃ i, (at0 0x00E0).At i ∧ i.draws) ∧ (one (at0 0x00E0)).runDone = false) ∧
    (State.reset.dirty = false ∧ State.reset.runDone = false ∧ step State.reset = .next (one State.reset) ∧
      ¬ State.reset.Ready) :=
  ⟨⟨rfl, rfl, step_one (by decide), ready_at0 _, ⟨.cls, rfl, trivial⟩, by decide⟩, rfl, rfl, step_one (by decide),
    fun h => absurd h.2.1 (by decide)⟩

/-- No key; key 15 alone; keys 6 and 8. -/
theorem test_hyp_KeyWaitTakesTheLowestKey :
    ((at0 0xF40A).key = 0 ∧ (at0 0xF40A).Ready ∧ (at0 0xF40A).At (.ldVxK 4) ∧ (at0 0xF40A).events = [] ∧
      (at0 0xF40A).dirty = false) ∧
    ((0x8000 : BitVec 16).getLsbD 15 = true ∧ ∀ j, j < 15 → (0x8000 : BitVec 16).getLsbD j = false) ∧
    ((0x0140 : BitVec 16).getLsbD 6 = true ∧ ∀ j, j < 6 → (0x0140 : BitVec 16).getLsbD j = false) :=
  ⟨⟨rfl, ready_at0 _, rfl, rfl, rfl⟩, by decide, by decide⟩

theorem test_hyp_TickCountsBothTimersDown : ({ State.reset with events := [.tick] } : State).pendingEvent = .tick := rfl

theorem test_hyp_TicksClampAtZero :
    ({ State.reset with dt := 2, events := [.tick, .tick, .tick] } : State).events = List.replicate 3 .tick := rfl

/-- A clock with a tick and a cycle. -/
def tickAndCycle : Clock :=
  { rst := false, cycleEn := true, tick60 := true, start := false, stop := false, pause := false, resume := false,
    load := none, key := 0, rnd := 0 }

/-- `at0 w` at the rising edge of that clock. -/
def clocked (w : Word) : State := { at0 w with dt := 3, events := tickAndCycle.events }

theorem test_hyp_TickComesBeforeCycleInOneClock :
    tickAndCycle.rst = false ∧ tickAndCycle.load = none ∧ tickAndCycle.tick60 = true ∧ tickAndCycle.cycleEn = true ∧
      (clocked 0xF307).events = tickAndCycle.events ∧ (clocked 0xF307).runState = .running ∧
      (clocked 0xF307).stopReq = false ∧ (clocked 0xF307).pc.toNat + 1 < 4096 ∧
      (clocked 0xF307).At (.ldVxDt 3) ∧ (clocked 0xF315).At (.ldDtVx 3) ∧ (clocked 0xF318).At (.ldStVx 3) :=
  ⟨rfl, rfl, rfl, rfl, rfl, rfl, rfl, by decide, rfl, rfl, rfl⟩

theorem test_hyp_StepRunsTheDecodedInstruction : (at0 0x6AFF).Ready ∧ (at0 0x6AFF).At (.ldImm 10 0xFF) :=
  ⟨ready_at0 _, rfl⟩

theorem test_hyp_StopRequestEndsTheRunFirst :
    ({ at0 0xF40A with stopReq := true } : State).pendingEvent = .cycle ∧
      ({ at0 0xF40A with stopReq := true } : State).runState ≠ .stopped ∧
      ({ at0 0xF40A with stopReq := true, runState := .paused } : State).runState ≠ .stopped := by decide

/-- `PC` at 4095, at 4096 and at 4094. -/
theorem test_hyp_FetchOutsideMemoryFaults :
    (at0 0x1FFF).pendingEvent = .cycle ∧ (at0 0x1FFF).runState = .running ∧ (at0 0x1FFF).stopReq = false ∧
      4095 ≤ ({ at0 0x1FFF with pc := 0x0FFF } : State).pc.toNat ∧
      4096 ≤ ({ at0 0x1FFF with pc := 0x1000 } : State).pc.toNat ∧
      ({ at0 0x1FFF with pc := 0x0FFE } : State).pc.toNat < 4095 := by decide

theorem test_hyp_InvalidOpcodeHaltsPrecisely :
    (at0 0xE2A0).Ready ∧ decodeWord (at0 0xE2A0).fetchedWord = .error (.unknown (at0 0xE2A0).fetchedWord) :=
  ⟨ready_at0 _, rfl⟩

theorem test_hyp_CyclesOutsideRunningDoNothing :
    State.reset.pendingEvent = .cycle ∧ State.reset.runState = .stopped ∧
      ({ State.reset with runState := .paused } : State).stopReq = false ∧
      ({ State.reset with runState := .paused, stopReq := true } : State).stopReq = true ∧
      ∃ t, ({ State.reset with events := [.tick] } : State).pendingEvent = .tick ∧
        step { State.reset with events := [.tick] } = .next t := ⟨rfl, rfl, rfl, rfl, _, rfl, rfl⟩

/-- A fetch fault, an invalid word, and a fault of an instruction. -/
theorem test_hyp_FaultsArePreciseAndOrdered :
    ([{ at0 0x1FFF with pc := 0x0FFF }, at0 0x0000, at0 0x00EE] : List State).all (fun s =>
      s.pendingEvent == .cycle && s.runState == .running && !s.stopReq && !s.runDone && (runSteps 1 s).isSome &&
      (one s).runDone) = true := by decide

/-- A run that a stop request ends, and one that a fault ends. -/
theorem test_hyp_RunsEndByStopOrFault :
    ([{ at0 0x6AFF with stopReq := true }, at0 0x00EE] : List State).all (fun s =>
      (runSteps 1 s).isSome && !s.runDone && (one s).runDone) = true := by decide

/-- A finished run and a start, a cycle, a tick. -/
theorem test_hyp_FinishedRunNeedsReset :
    ([[.start], [], [.tick]] : List (List Event)).all (fun l =>
      let s : State := { State.reset with runDone := true, events := l }
      s.runState == .stopped && s.runDone && s.pendingEvent != .reset && (runSteps 1 s).isSome) = true := by decide

/-- Each host event pending, in a state that enables it, and load, start, pause, resume in one that does not. -/
theorem test_hyp_HostEventsDoOnlyTheirPart :
    Memory.wf State.reset.cfg.fontBase State.reset.mem = true ∧
      ({ State.reset with events := [.load 0x200 1] } : State).pendingEvent = .load 0x200 1 ∧
      (State.reset.runState = .stopped ∧ State.reset.runDone = false ∧ 0x200 ≤ (0x200 : BitVec 12).toNat) ∧
      ¬ 0x200 ≤ (0x1FF : BitVec 12).toNat ∧
      ({ State.reset with runDone := true, events := [.start] } : State).runDone ≠ false ∧
      ({ State.reset with events := [.stop] } : State).pendingEvent = .stop ∧
      ({ at0 0 with events := [.pause] } : State).runState = .running ∧
      ({ State.reset with events := [.pause] } : State).runState ≠ .running ∧
      ({ State.reset with runState := .paused, events := [.resume] } : State).runState = .paused ∧
      ({ State.reset with events := [.resume] } : State).runState ≠ .paused ∧
      ({ State.reset with events := [.keyChange 5] } : State).pendingEvent = .keyChange 5 ∧
      ({ State.reset with events := [.rndChange 5] } : State).pendingEvent = .rndChange 5 := by decide

theorem test_hyp_ResetGivesTheResetValues :
    ({ at0 0x6AFF with events := [.reset] } : State).pendingEvent = .reset ∧
      (at0 0x6AFF).cfg.wellFormed = true := by decide

/-- An empty ROM and one of two bytes. -/
theorem test_hyp_BootReachesTheLaunchState :
    State.reset.cfg.wellFormed = true ∧ ([] : List Byte).length ≤ 3584 ∧ ([0x00, 0xE0] : List Byte).length ≤ 3584 ∧
      ({ State.reset with events := bootEvents [0x00, 0xE0] } : State).events = bootEvents [0x00, 0xE0] := by decide

/-- The longest ROM, and one byte more. -/
theorem test_hyp_OversizedRomIsRefusedWhole :
    (List.replicate 3584 (0 : Byte)).length ≤ 3584 ∧ 3584 < (List.replicate 3585 (0 : Byte)).length ∧
      State.reset.fresh = true ∧ Memory.wf State.reset.cfg.fontBase State.reset.mem = true := by
  refine ⟨?_, ?_, rfl, rfl⟩
  · rw [List.length_replicate]
  · rw [List.length_replicate]; decide

theorem test_hyp_HostStrobesApplyInOrder :
    tickAndCycle.rst = false ∧ ({ tickAndCycle with rst := true } : Clock).rst = true := by decide

/-- No fault, and one of each kind. -/
theorem test_hyp_OutputsShowTheState :
    State.reset.fault = none ∧
      ([.invalidOpcode, .addressOutOfRange 0x10FE, .stackOverflow, .stackUnderflow] : List FaultCause).map
          (fun c => ({ State.reset with fault := some ⟨c, 0x200, 0⟩ } : State).fault.map FaultRecord.cause) =
        [some .invalidOpcode, some (.addressOutOfRange 0x10FE), some .stackOverflow, some .stackUnderflow] := by decide

/-- A return that faults, a call that does not, and a word that is no instruction. -/
theorem test_hyp_ProgramCounterAfterEachInstruction :
    (∃ t, State.reset.runDone = false ∧ State.reset.stack.length = State.reset.cfg.stackCapacity ∧
      State.reset.sp ≤ State.reset.cfg.stackCapacity ∧ exec .ret State.reset = .next t ∧ t.runDone = true) ∧
    (∃ t, exec (.call 0x300) State.reset = .next t ∧ t.runDone = false) ∧
    (at0 0x0000).Ready ∧ ∀ i, ¬ (at0 0x0000).At i :=
  ⟨⟨_, rfl, rfl, by decide, rfl, rfl⟩, ⟨_, rfl, rfl⟩, ready_at0 _, fun i h => by
    have : decodeWord (at0 0x0000).fetchedWord = .error (.unknown 0x0000) := rfl
    unfold State.At at h; rw [this] at h; cases h⟩

theorem test_hyp_RegistersAreWrittenOnlyAsListed :
    step (at0 0x6AFF) = .next (one (at0 0x6AFF)) ∧ (one (at0 0x6AFF)).reg 10 ≠ (at0 0x6AFF).reg 10 :=
  ⟨step_one (by decide), by decide⟩

theorem test_hyp_RegistersAreReadOnlyAsListed :
    ¬ (Instr.shr 1 2).reads 2 ∧ (∃ t, exec (.shr 1 2) State.reset = .next t) ∧
      ∃ t', exec (.shr 1 2) (State.reset.setReg 2 0xFF) = .next t' :=
  ⟨by unfold Instr.reads; decide, ⟨_, rfl⟩, _, rfl⟩

theorem test_hyp_InputsAreSampledOnlyAsListed :
    (∃ t, exec (.ldImm 1 2) State.reset = .next t) ∧ ¬ (Instr.ldImm 1 2).samplesKeys ∧
      ¬ (Instr.ldImm 1 2).samplesRandom ∧ ¬ (Instr.skp 1).samplesRandom ∧ ¬ (Instr.rnd 1 2).samplesKeys :=
  ⟨⟨_, rfl⟩, id, id, id, id⟩

/-- A glyph of the font drawn at column 0, row 0. -/
def drawsGlyph : State := { at0 0xD015 with index := 0x050 }

theorem test_hyp_FramebufferChangesOnlyByDrawing :
    step drawsGlyph = .next (one drawsGlyph) ∧ ¬ ((one drawsGlyph).Lit 0 0 ↔ drawsGlyph.Lit 0 0) :=
  ⟨step_one (by decide), by unfold State.Lit; decide⟩

/-- FX55 at the last byte of memory, and a load of the first byte a load may write. -/
theorem test_hyp_MemoryChangesOnlyByStores :
    ([({ withRegs (at0 0xF055) [(0, 0xAB)] with index := 0xFFF }, 0xFFF),
      ({ State.reset with events := [.load 0x200 1] }, 0x200)] : List (State × Nat)).all (fun p =>
      Memory.wf p.1.cfg.fontBase p.1.mem && p.1.cfg.wellFormed && (runSteps 1 p.1).isSome &&
      decide ((one p.1).byteAt p.2 ≠ p.1.byteAt p.2)) = true := by decide

/-- ANNN, 2NNN, FX15 and FX18, each changing its register. -/
theorem test_hyp_SpecialRegistersChangeOnlyByTheirWriters :
    ([at0 0xA123, at0 0x2300, withRegs (at0 0xF315) [(3, 7)], withRegs (at0 0xF318) [(3, 7)]] : List State).all (fun s =>
      (runSteps 1 s).isSome && s.pendingEvent != .reset) = true ∧
      (one (at0 0xA123)).index ≠ (at0 0xA123).index ∧ (one (at0 0x2300)).sp ≠ (at0 0x2300).sp ∧
      (one (at0 0x2300)).stack[0]? ≠ (at0 0x2300).stack[0]? ∧
      (one (withRegs (at0 0xF315) [(3, 7)])).dt ≠ (at0 0xF315).dt ∧
      (one (withRegs (at0 0xF318) [(3, 7)])).st ≠ (at0 0xF318).st := by decide

theorem test_hyp_PartsDetermineTheState :
    Memory.wf State.reset.cfg.fontBase State.reset.mem = true ∧ ∀ p : Part, p.same State.reset State.reset :=
  ⟨rfl, fun p => p.same_refl _⟩

theorem test_hyp_EveryStepKeepsTheInvariant : (at0 0x2300).Inv ∧ step (at0 0x2300) = .next (one (at0 0x2300)) :=
  ⟨inv_at0 _, step_one (by decide)⟩

theorem test_hyp_InvariantHoldsAtReset : Config.wellFormed ⟨12, 0⟩ = true := by decide

/-- 00EE with one entry in use, and another value in an entry above it. -/
theorem test_hyp_StaleStackEntriesAreUnobservable :
    let s : State := { at0 0x00EE with sp := 1 }
    let s' : State := { s with stack := s.stack.set 5 0x0ABC }
    s' = { s with stack := s'.stack } ∧ s'.stack.length = s.stack.length ∧
      (∀ k, k < s.sp → s'.stack[k]? = s.stack[k]?) ∧ (runSteps 1 s).isSome = true ∧ s'.stack ≠ s.stack := by decide

end Sys2Proof.Tests
end

/-!
The program counter after one instruction (10_state.md R24): where the shared operations leave it, the two ends an
instruction can have, and O48.
-/

namespace Sys2Proof.Machine

/-! ### What the shared operations do to `PC` -/

@[simp] theorem State.advance_pc (s : State) : s.advance.pc = s.pc + 2 := rfl

@[simp] theorem State.skipIf_pc (s : State) (taken : Bool) :
    (s.skipIf taken).pc = if taken = true then s.pc + 4 else s.pc + 2 := rfl

theorem State.skipIf_not_pc (s : State) (taken : Bool) :
    (s.skipIf !taken).pc = if taken = true then s.pc + 2 else s.pc + 4 := by
  cases taken <;> rfl

theorem State.writeResult_pc (s : State) (x : Reg) (b : Byte) : (s.writeResult x b).pc = s.pc + 2 := rfl

theorem State.writeResultFlag_pc (s : State) (x : Reg) (b f : Byte) :
    (s.writeResultFlag x b f).pc = s.pc + 2 := rfl

@[simp] theorem State.storeBytes_pc (s : State) (a : Nat) (bs : List Byte) : (s.storeBytes a bs).pc = s.pc := by
  rw [State.storeBytes_eq]

@[simp] theorem State.loadRegs_pc (s : State) (base count : Nat) : (s.loadRegs base count).pc = s.pc := by
  rw [State.loadRegs_eq]

/-! ### The two ends of an instruction: a fault ends the run, an effect does not -/

/-- In an unfinished run an instruction that ends the run has raised a fault. -/
theorem exec_raised_of_runDone {i : Instr} {s t : State} (hs : s.runDone = false) (h : exec i s = .next t)
    (ht : t.runDone = true) : ∃ c, i.mayRaise c ∧ t = s.raiseAt c := by
  rcases exec_cases h with hr | hc
  · exact hr
  · rw [(runKept_of_touches hc).runDone, hs] at ht
    contradiction

/-- A bounds check that does not end the run has let the effect through. -/
theorem guardRange_of_unfinished {s effect : State} {len : Nat} (h : (s.guardRange len effect).runDone = false) :
    s.guardRange len effect = effect := by
  rcases guardRange_cases s len effect with ⟨_, e⟩ | ⟨_, e⟩
  · rw [e] at h
    contradiction
  · exact e

/-- A bounds-checked effect that moves `PC` to `p` leaves it there, unless the check ends the run. -/
theorem guardRange_pc {s effect : State} {len : Nat} {p : Word} (h : (s.guardRange len effect).runDone = false)
    (hp : effect.pc = p) : (s.guardRange len effect).pc = p := by
  rw [guardRange_of_unfinished h, hp]

/-- 00EE without a fault: the stack was not empty. -/
theorem execRet_of_unfinished {s t : State} (h : exec .ret s = .next t) (ht : t.runDone = false) :
    0 < s.sp ∧ t = s.pop.setPc s.topOfStack := by
  cases h
  split at ht
  · contradiction
  · next hsp => exact ⟨Nat.pos_of_ne_zero hsp, if_neg hsp⟩

/-- 2NNN without a fault: an entry was free. -/
theorem execCall_of_unfinished {nnn : BitVec 12} {s t : State} (h : exec (.call nnn) s = .next t)
    (ht : t.runDone = false) :
    s.sp < s.cfg.stackCapacity ∧ t = (s.push (s.pc + 2)).setPc (addressOf nnn) := by
  cases h
  split at ht
  · next hsp => exact ⟨hsp, if_pos hsp⟩
  · contradiction

/-! ### Targets and conditions -/

theorem toNat_addressOf (nnn : BitVec 12) : (addressOf nnn).toNat = nnn.toNat := by
  rw [addressOf, BitVec.toNat_setWidth]
  omega

/-- The target of BNNN does not wrap (R107). -/
theorem toNat_addressOf_add_zext16 (nnn : BitVec 12) (b : Byte) :
    (addressOf nnn + zext16 b).toNat = nnn.toNat + b.toNat := by
  rw [BitVec.toNat_add, toNat_addressOf, zext16, BitVec.toNat_setWidth]
  omega

theorem topOfStack_get? {s : State} (hsp : 0 < s.sp) (hlen : s.sp ≤ s.stack.length) :
    s.stack[s.sp - 1]? = some s.topOfStack := by
  have hlt : s.sp - 1 < s.stack.length := by omega
  simp [State.topOfStack, hlt]

/-- No key is found down exactly when every key line is low (R164). -/
theorem lowestKey_eq_none_iff (s : State) : s.lowestKey = none ↔ s.key = 0 := by
  simp only [State.lowestKey, State.keyDown, List.find?_eq_none, List.mem_range, Bool.not_eq_true]
  constructor
  · intro h
    exact BitVec.eq_of_getLsbD_eq fun k hk => by simpa using h k hk
  · intro h k _
    simp [h]

/-- FX0A stays where it is until a key is down (R164). -/
theorem execLdVxK_pc {x : Reg} {s t : State} (h : exec (.ldVxK x) s = .next t) :
    t.pc = if s.key = 0 then s.pc else s.pc + 2 := by
  cases h
  rcases hk : s.lowestKey with _ | k
  · rw [if_pos ((lowestKey_eq_none_iff s).1 hk)]
  · have hdown : s.key ≠ 0 := fun h => by simp [(lowestKey_eq_none_iff s).2 h] at hk
    rw [if_neg hdown]
    exact State.advance_pc _

/-! ### O48 -/

/-- A cycle that finds no instruction at `PC` raises its fault with `PC` as it was (R94, R179). -/
theorem step_pc_of_no_instruction {s : State} (hr : s.Ready) (hno : ∀ i, ¬ s.At i) :
    ∃ t, step s = .next t ∧ t.pc = s.pc := by
  obtain ⟨hevent, hrun, hstop, hfetch⟩ := hr
  rcases hd : decodeWord s.fetchedWord with e | i
  · refine ⟨s.popEvent.raise .invalidOpcode s.popEvent.fetchedWord, ?_, rfl⟩
    rw [step_of_cycle hevent, cycle_of_running (s := s.popEvent) hrun hstop]
    exact runInstruction_of_error hfetch hd
  · exact absurd hd (hno i)

/-- Settles O48: an instruction that ends the run raised, with `PC` unchanged; otherwise the case of its own definition
says where it leaves `PC`. -/
theorem programCounterAfterEachInstruction : Obligations.ProgramCounterAfterEachInstruction := by
  unfold Obligations.ProgramCounterAfterEachInstruction
  refine ⟨fun i s t hs hlen hsp h => ⟨fun ht => ?_, fun ht => ?_⟩, fun s => step_pc_of_no_instruction⟩
  · obtain ⟨c, -, rfl⟩ := exec_raised_of_runDone hs h ht
    rfl
  cases i
  case jp nnn => cases h; exact toNat_addressOf nnn
  case jpV0 nnn => cases h; exact toNat_addressOf_add_zext16 nnn _
  case call nnn =>
    obtain ⟨hfree, rfl⟩ := execCall_of_unfinished h ht
    rw [← hlen] at hfree
    exact ⟨toNat_addressOf nnn, by simp [hfree]⟩
  case ret =>
    obtain ⟨hpos, rfl⟩ := execRet_of_unfinished h ht
    exact topOfStack_get? hpos (hlen ▸ hsp)
  case seImm | seReg | sneImm | sneReg => cases h; simp
  case skp => cases h; exact State.skipIf_pc s _
  case sknp => cases h; exact State.skipIf_not_pc s _
  case ldVxK => exact execLdVxK_pc h
  case drw => cases h; exact guardRange_pc ht rfl
  case ldB | storeRegs | loadRegs => cases h; exact guardRange_pc ht (by simp)
  case ldImm | addImm | ldReg | orReg | andReg | xorReg | rnd | ldVxDt => cases h; exact State.writeResult_pc s _ _
  case addReg | subReg | shr | subn | shl => cases h; exact State.writeResultFlag_pc s _ _ _
  case cls | ldI | addI | ldF | ldDtVx | ldStVx => cases h; exact State.advance_pc _

end Sys2Proof.Machine

/-!
The decoder's fields as the named bits of the word and of its two bytes (30_encoding.md R71), and O4.
-/

namespace Sys2Proof

/-! ### Each field as a quotient or remainder of the word -/

theorem fieldN_lt (w : Word) : fieldN w < 16 := (w.extractLsb' 0 4).isLt

theorem toNat_fieldOp_eq_div (w : Word) : (fieldOp w).toNat = w.toNat / 4096 := by
  have hw := toNat_fields w
  have hx := (fieldX w).isLt
  have hy := (fieldY w).isLt
  have hn := fieldN_lt w
  omega

theorem val_fieldX_eq_div_mod (w : Word) : (fieldX w).val = w.toNat / 256 % 16 := by
  have hw := toNat_fields w
  have hx := (fieldX w).isLt
  have hy := (fieldY w).isLt
  have hn := fieldN_lt w
  omega

theorem val_fieldY_eq_div_mod (w : Word) : (fieldY w).val = w.toNat / 16 % 16 := by
  have hw := toNat_fields w
  have hy := (fieldY w).isLt
  have hn := fieldN_lt w
  omega

theorem fieldN_eq_mod (w : Word) : fieldN w = w.toNat % 16 := by
  have hw := toNat_fields w
  have hn := fieldN_lt w
  omega

theorem toNat_fieldNN_eq_mod (w : Word) : (fieldNN w).toNat = w.toNat % 256 := by
  rw [toNat_fieldNN, val_fieldY_eq_div_mod, fieldN_eq_mod]
  omega

theorem toNat_fieldNNN_eq_add_fieldNN (w : Word) :
    (fieldNNN w).toNat = 256 * (fieldX w).val + (fieldNN w).toNat := by
  rw [toNat_fieldNNN, toNat_fieldNN, Nat.add_assoc]

theorem toNat_fieldNNN_eq_mod (w : Word) : (fieldNNN w).toNat = w.toNat % 4096 := by
  rw [toNat_fieldNNN_eq_add_fieldNN, val_fieldX_eq_div_mod, toNat_fieldNN_eq_mod]
  omega

/-! ### The word of two bytes (R50) -/

theorem toNat_wordOfBytes (hi lo : Byte) : (wordOfBytes hi lo).toNat = 256 * hi.toNat + lo.toNat := by
  have hhi := hi.isLt
  have hshift : hi.toNat <<< 8 % 2 ^ 16 = hi.toNat <<< 8 := by
    rw [Nat.shiftLeft_eq]
    omega
  simp only [wordOfBytes, BitVec.toNat_or, BitVec.toNat_shiftLeft, BitVec.toNat_setWidth_of_le (by decide : 8 ≤ 16)]
  rw [hshift, ← Nat.shiftLeft_add_eq_or_of_lt lo.isLt, Nat.shiftLeft_eq, Nat.mul_comm]

theorem toNat_fieldOp_wordOfBytes (hi lo : Byte) : (fieldOp (wordOfBytes hi lo)).toNat = hi.toNat / 16 := by
  rw [toNat_fieldOp_eq_div, toNat_wordOfBytes]
  omega

theorem val_fieldX_wordOfBytes (hi lo : Byte) : (fieldX (wordOfBytes hi lo)).val = hi.toNat % 16 := by
  rw [val_fieldX_eq_div_mod, toNat_wordOfBytes]
  omega

theorem fieldNN_wordOfBytes (hi lo : Byte) : fieldNN (wordOfBytes hi lo) = lo := by
  apply BitVec.eq_of_toNat_eq
  rw [toNat_fieldNN_eq_mod, toNat_wordOfBytes]
  omega

end Sys2Proof

namespace Sys2Proof.Machine

/-! ### O4 -/

/-- Settles O4: each field is the quotient or remainder of the word that names its bits, and a word of two bytes is 256
times the first plus the second. -/
theorem fieldsAreTheNamedBits : Obligations.FieldsAreTheNamedBits := by
  unfold Obligations.FieldsAreTheNamedBits
  constructor
  · intro w
    exact ⟨toNat_fieldOp_eq_div w, val_fieldX_eq_div_mod w, val_fieldY_eq_div_mod w, fieldN_eq_mod w,
      toNat_fieldNN_eq_mod w, toNat_fieldNNN_eq_mod w, toNat_fieldNN w, toNat_fieldNNN_eq_add_fieldNN w⟩
  · intro hi lo
    exact ⟨toNat_fieldOp_wordOfBytes hi lo, val_fieldX_wordOfBytes hi lo, fieldNN_wordOfBytes hi lo⟩

end Sys2Proof.Machine

/-!
The stages of the engine cycle (40_cycle.md R91 to R97) as steps of the machine: the stop poll, the fetch, the decoder's
refusal and the cycles that do nothing; and O35 to O38.
-/

namespace Sys2Proof.Machine

/-! ### One step per stage of the cycle -/

/-- A cycle that sees the stop request only ends the run (R91). -/
theorem step_of_stopReq {s : State} (hevent : s.pendingEvent = .cycle) (hrun : s.runState ≠ .stopped)
    (hstop : s.stopReq = true) : step s = .next s.popEvent.endRun := by
  rw [step_of_cycle hevent]
  exact cycle_of_stopReq hrun hstop

/-- A cycle of a running engine with no stop requested goes on to the fetch (R90). -/
theorem step_of_running {s : State} (hevent : s.pendingEvent = .cycle) (hrun : s.runState = .running)
    (hstop : s.stopReq = false) : step s = runInstruction s.popEvent := by
  rw [step_of_cycle hevent]
  exact cycle_of_running hrun hstop

/-- A ready step on an instruction executes it (R95). -/
theorem step_of_at {s : State} {i : Instr} (hready : s.Ready) (hat : s.At i) :
    step s = executeAndEmit i s.popEvent := by
  obtain ⟨hevent, hrun, hstop, hfetch⟩ := hready
  rw [step_of_running hevent hrun hstop]
  exact runInstruction_of_ok (s := s.popEvent) hfetch hat

/-- A ready step on a word the decoder refuses raises InvalidOpcode (R94). -/
theorem step_of_decode_error {s : State} {e : Reject} (hready : s.Ready) (hd : decodeWord s.fetchedWord = .error e) :
    step s = .next (s.popEvent.raise .invalidOpcode s.fetchedWord) := by
  obtain ⟨hevent, hrun, hstop, hfetch⟩ := hready
  rw [step_of_running hevent hrun hstop]
  exact runInstruction_of_error (s := s.popEvent) hfetch hd

/-- A tick changes the timers and the list of events, whatever the run state (R97, R185). -/
theorem step_of_tick {s : State} (hevent : s.pendingEvent = .tick) : step s = .next s.popEvent.tick := by
  rw [step_eq_deliver, hevent]
  rfl

/-! ### The address of a fetch fault -/

/-- From 4095 up, the reported address is `PC` if that does not exist, else 4096 (R92). -/
theorem toNat_fetchFaultAddress_of_outside {s : State} (hpc : 4095 ≤ s.pc.toNat) :
    s.fetchFaultAddress.toNat = if 4096 ≤ s.pc.toNat then s.pc.toNat else 4096 := by
  rw [toNat_fetchFaultAddress]
  split <;> omega

/-! ### O35 to O38 -/

/-- Settles O35: the step is the end of the run, whose frame is known. -/
theorem stopRequestEndsTheRunFirst : Obligations.StopRequestEndsTheRunFirst := by
  unfold Obligations.StopRequestEndsTheRunFirst
  intro s hevent hrun hstop
  refine ⟨s.popEvent.endRun, step_of_stopReq hevent hrun hstop, rfl, rfl, ?_⟩
  exact (changesOnly_popEvent s).then (changesOnly_endRun _) (by simp) (by simp +contextual)

/-- Settles O36: outside memory the fetch raises; inside, the decoder's answer decides what the step is. -/
theorem fetchOutsideMemoryFaults : Obligations.FetchOutsideMemoryFaults := by
  unfold Obligations.FetchOutsideMemoryFaults
  intro s hevent hrun hstop
  constructor
  · intro hpc
    refine ⟨_, s.popEvent.fetchFaultAddress, ?_, toNat_fetchFaultAddress_of_outside (s := s.popEvent) hpc,
      faulted_raise _ _ _⟩
    rw [step_of_running hevent hrun hstop]
    exact runInstruction_of_outside (s := s.popEvent) (Nat.succ_le_succ hpc)
  · intro hpc
    have hready : s.Ready := ⟨hevent, hrun, hstop, Nat.succ_lt_succ hpc⟩
    rcases hd : decodeWord s.fetchedWord with e | i
    · exact .inr ⟨_, step_of_decode_error hready hd, faulted_raise _ _ _⟩
    · exact .inl ⟨i, hd, step_of_at hready hd⟩

/-- Settles O37: the step is the raise of InvalidOpcode, whose effect is known. -/
theorem invalidOpcodeHaltsPrecisely : Obligations.InvalidOpcodeHaltsPrecisely := by
  unfold Obligations.InvalidOpcodeHaltsPrecisely
  constructor
  · intro s hready hd
    exact ⟨_, step_of_decode_error hready hd, faulted_raise _ _ _⟩
  · rfl

/-- Settles O38: the cycle's two idle run states, the stop poll in `Paused`, and a tick that does not look at the run
state. -/
theorem cyclesOutsideRunningDoNothing : Obligations.CyclesOutsideRunningDoNothing := by
  unfold Obligations.CyclesOutsideRunningDoNothing
  refine ⟨fun s hevent hidle => ?_, fun s hevent hpaused hstop => ?_, fun s t r hevent hstep => ?_⟩
  · rw [step_of_cycle hevent]
    rcases hidle with hstopped | ⟨hpaused, hstop⟩
    · exact cycle_of_stopped hstopped
    · exact cycle_of_paused hpaused hstop
  · exact ⟨_, step_of_stopReq hevent (by simp [hpaused]) hstop, rfl⟩
  · rw [step_of_tick hevent] at hstep
    cases hstep
    exact step_of_tick (s := { s with runState := r }) hevent

end Sys2Proof.Machine

/-!
The control transfer instructions (41_control_flow.md): what each answers as one composition of the shared operations,
the skips through one lemma, and O7 to O10.
-/

namespace Sys2Proof.Machine

/-! ### 00EE and 2NNN, each with its fault (R100, R102) -/

theorem exec_ret_of_empty {s : State} (hsp : s.sp = 0) : exec .ret s = .next (s.raiseAt .stackUnderflow) :=
  congrArg Host.Outcome.next (if_pos hsp)

theorem exec_ret_of_nonempty {s : State} (hsp : 0 < s.sp) : exec .ret s = .next (s.pop.setPc s.topOfStack) :=
  congrArg Host.Outcome.next (if_neg hsp.ne')

theorem exec_call_of_free {s : State} (nnn : BitVec 12) (hsp : s.sp < s.cfg.stackCapacity) :
    exec (.call nnn) s = .next ((s.push (s.pc + 2)).setPc (addressOf nnn)) :=
  congrArg Host.Outcome.next (if_pos hsp)

theorem exec_call_of_full {s : State} (nnn : BitVec 12) (hsp : s.sp = s.cfg.stackCapacity) :
    exec (.call nnn) s = .next (s.raiseAt .stackOverflow) :=
  congrArg Host.Outcome.next (if_neg hsp.not_lt)

theorem push_stack_get? {s : State} (a : Word) (hsp : s.sp < s.stack.length) : (s.push a).stack[s.sp]? = some a :=
  List.getElem?_set_self hsp

theorem changesOnly_pop_setPc (s : State) (a : Word) :
    ChangesOnly (fun p => p = .pc ∨ p = .sp) s (s.pop.setPc a) :=
  (changesOnly_pop s).then (changesOnly_setPc _ a) (fun _ => .inr) (fun _ => .inl)

theorem changesOnly_push_setPc (s : State) (a b : Word) :
    ChangesOnly (fun p => p = .pc ∨ p = .sp ∨ p = .stackEntry s.sp) s ((s.push a).setPc b) :=
  (changesOnly_push s a).then (changesOnly_setPc _ b) (fun _ => .inr) (fun _ => .inl)

/-! ### The skips (R108) -/

/-- An instruction that answers `skipIf b` skips on whatever condition `b` decides. -/
theorem skips_of_exec {i : Instr} {s : State} {b : Bool} {taken : Prop} (h : exec i s = .next (s.skipIf b))
    (hb : b = true ↔ taken) : Skips i taken s := by
  refine ⟨s.skipIf b, h, fun ht => ?_, fun ht => ?_, changesOnly_skipIf s b⟩
  · rw [State.skipIf_pc, if_pos (hb.2 ht)]
  · rw [State.skipIf_pc, if_neg fun h => ht (hb.1 h)]

theorem decide_eq_iff_toNat_eq (a b : Byte) : decide (a = b) = true ↔ a.toNat = b.toNat :=
  decide_eq_true_iff.trans BitVec.toNat_inj.symm

theorem decide_ne_iff_toNat_ne (a b : Byte) : decide (a ≠ b) = true ↔ a.toNat ≠ b.toNat :=
  decide_eq_true_iff.trans (not_congr BitVec.toNat_inj.symm)

/-! ### O7 to O10 -/

/-- Settles O7: the empty stack is the fault; otherwise `PC` takes the top entry. -/
theorem returnPopsTheStack : Obligations.ReturnPopsTheStack := by
  unfold Obligations.ReturnPopsTheStack
  refine ⟨rfl, fun s hlen hle => ?_⟩
  rcases Nat.eq_zero_or_pos s.sp with hempty | hpos
  · refine ⟨_, exec_ret_of_empty hempty, fun _ => faulted_raise s _ _, fun hpos => ?_⟩
    exact absurd hempty hpos.ne'
  · refine ⟨_, exec_ret_of_nonempty hpos, fun hempty => absurd hempty hpos.ne', fun _ => ⟨?_, ?_, ?_⟩⟩
    · exact Nat.sub_add_cancel hpos
    · exact topOfStack_get? hpos (hlen ▸ hle)
    · exact changesOnly_pop_setPc s _

/-- Settles O8: each jump answers one `setPc`; the sum of BNNN fits 16 bits. -/
theorem jumpsGoToTheirTargets : Obligations.JumpsGoToTheirTargets := by
  unfold Obligations.JumpsGoToTheirTargets
  intro nnn s
  refine ⟨toNat_packA 0x1 nnn, toNat_packA 0xB nnn, ?_, ?_⟩
  · exact ⟨_, rfl, toNat_addressOf nnn, changesOnly_setPc s _⟩
  · exact ⟨_, rfl, toNat_addressOf_add_zext16 nnn _, changesOnly_setPc s _⟩

/-- Settles O9: the full stack is the fault; otherwise the entry at `SP` takes the return address. -/
theorem callPushesTheReturnAddress : Obligations.CallPushesTheReturnAddress := by
  unfold Obligations.CallPushesTheReturnAddress
  intro nnn s hlen hle
  refine ⟨toNat_packA 0x2 nnn, ?_⟩
  rcases hle.eq_or_lt with hfull | hfree
  · refine ⟨_, exec_call_of_full nnn hfull, fun _ => faulted_raise s _ _, fun hfree => ?_⟩
    exact absurd hfull hfree.ne
  · refine ⟨_, exec_call_of_free nnn hfree, fun hfull => absurd hfull hfree.ne, fun _ => ⟨?_, rfl, ?_, ?_⟩⟩
    · exact push_stack_get? _ (hlen ▸ hfree)
    · exact toNat_addressOf nnn
    · exact changesOnly_push_setPc s _ _

/-- Settles O10: each of the four answers `skipIf` of its comparison of two bytes. -/
theorem skipsCompareRegisterValues : Obligations.SkipsCompareRegisterValues := by
  unfold Obligations.SkipsCompareRegisterValues
  intro x y nn s
  refine ⟨toNat_packXI 0x3 x nn, toNat_packXI 0x4 x nn, toNat_packNibbles 0x5 0x0 x y, toNat_packNibbles 0x9 0x0 x y,
    ?_, ?_, ?_, ?_⟩
  · exact skips_of_exec rfl (decide_eq_iff_toNat_eq (s.reg x) nn)
  · exact skips_of_exec rfl (decide_ne_iff_toNat_ne (s.reg x) nn)
  · exact skips_of_exec rfl (decide_eq_iff_toNat_eq (s.reg x) (s.reg y))
  · exact skips_of_exec rfl (decide_ne_iff_toNat_ne (s.reg x) (s.reg y))

end Sys2Proof.Machine

/-!
The load, ALU and random instructions (42_alu.md R120 to R133): the numbers the 8-bit operations give, the two shapes of
a register write, and O13 to O18.
-/

namespace Sys2Proof.Machine

/-! ### The 8-bit operations as numbers (R120) -/

theorem toNat_flagByte (b : Bool) : (flagByte b).toNat = b.toNat := by
  cases b <;> rfl

theorem toNat_add8 (a b : Byte) : (add8 a b).toNat = (a.toNat + b.toNat) % 256 := BitVec.toNat_ofNat _ _

theorem toNat_sub8 (a b : Byte) : (sub8 a b).toNat = (a.toNat + 256 - b.toNat) % 256 := BitVec.toNat_ofNat _ _

theorem toNat_shr8 (a : Byte) : (shr8 a).toNat = a.toNat / 2 := by
  rw [shr8, BitVec.toNat_ushiftRight, Nat.shiftRight_eq_div_pow]

theorem toNat_shl8 (a : Byte) : (shl8 a).toNat = 2 * a.toNat % 256 := by
  rw [shl8, BitVec.toNat_shiftLeft, Nat.shiftLeft_eq, Nat.mul_comm]

/-! ### The flags as numbers (R26, R120) -/

theorem toNat_carry (a b : Byte) : (carry a b).toNat = if a.toNat + b.toNat > 255 then 1 else 0 := by
  rw [carry, toNat_flagByte, Bool.toNat, Bool.cond_decide]

/-- The flag of a subtraction is 0 exactly when the minuend is the smaller one. -/
theorem toNat_noborrow (a b : Byte) : (noborrow a b).toNat = if a.toNat < b.toNat then 0 else 1 := by
  rw [noborrow, toNat_flagByte, Bool.toNat, Bool.cond_decide, if_congr not_lt.symm rfl rfl, ite_not]

theorem toNat_outLo (a : Byte) : (outLo a).toNat = a.toNat % 2 := by
  rw [outLo, toNat_flagByte, BitVec.getLsbD, Nat.toNat_testBit, Nat.pow_zero, Nat.div_one]

theorem toNat_outHi (a : Byte) : (outHi a).toNat = a.toNat / 128 := by
  have ha := a.isLt
  rw [outHi, toNat_flagByte, BitVec.getLsbD, Nat.toNat_testBit]
  omega

/-! ### The words of format XY with an opcode in the last nibble (R72) -/

theorem toNat_packNibbles_code (a d : BitVec 4) (x y : Reg) :
    (packNibbles a (regBits x) (regBits y) d).toNat = 4096 * a.toNat + d.toNat + 256 * x.val + 16 * y.val := by
  rw [toNat_packNibbles]
  omega

/-! ### The two shapes of a register write (R121) -/

/-- An instruction that answers `writeResult` writes that one register. -/
theorem writesReg_of_exec {i : Instr} {x : Reg} {b : Byte} {s : State} (h : exec i s = .next (s.writeResult x b)) :
    WritesReg i x b s := by
  refine ⟨s.writeResult x b, h, ?_, State.writeResult_pc s x b, changesOnly_writeResult s x b⟩
  rw [State.reg_writeResult, if_pos rfl]

/-- An instruction that answers `writeResultFlag` leaves the flag in `VF`, whatever `x` is. -/
theorem writesRegAndFlag_of_exec {i : Instr} {x : Reg} {b f : Byte} {s : State} {result flag : Nat}
    (h : exec i s = .next (s.writeResultFlag x b f)) (hb : b.toNat = result) (hf : f.toNat = flag) :
    WritesRegAndFlag i x result flag s := by
  refine ⟨s.writeResultFlag x b f, h, fun hx => ?_, ?_, State.writeResultFlag_pc s x b f,
    changesOnly_writeResultFlag s x b f⟩
  · rw [State.reg_writeResultFlag, if_neg hx, if_pos rfl, hb]
  · rw [State.reg_writeResultFlag, if_pos rfl, hf]

/-! ### O13 to O18 -/

/-- Settles O13: each of the five answers one `writeResult`; the logic ones by their bits. -/
theorem loadsAndLogicWriteOneRegister : Obligations.LoadsAndLogicWriteOneRegister := by
  unfold Obligations.LoadsAndLogicWriteOneRegister
  intro x y nn s
  refine ⟨toNat_packXI 0x6 x nn, toNat_packNibbles_code 0x8 0x0 x y, toNat_packNibbles_code 0x8 0x1 x y,
    toNat_packNibbles_code 0x8 0x2 x y, toNat_packNibbles_code 0x8 0x3 x y, ?_, ?_, ?_, ?_, ?_⟩
  · exact writesReg_of_exec rfl
  · exact writesReg_of_exec rfl
  · exact ⟨_, writesReg_of_exec rfl, fun k _ => by rw [BitVec.getLsbD_or, Bool.or_eq_true]⟩
  · exact ⟨_, writesReg_of_exec rfl, fun k _ => by rw [BitVec.getLsbD_and, Bool.and_eq_true]⟩
  · exact ⟨_, writesReg_of_exec rfl, fun k _ => by rw [BitVec.getLsbD_xor, bne_iff_ne, ne_eq, Bool.eq_iff_iff]⟩

/-- Settles O14: 7XNN answers one `writeResult` of the sum. -/
theorem addImmediateWrapsWithoutFlag : Obligations.AddImmediateWrapsWithoutFlag := by
  unfold Obligations.AddImmediateWrapsWithoutFlag
  intro x nn s
  exact ⟨toNat_packXI 0x7 x nn, add8 (s.reg x) nn, writesReg_of_exec rfl, toNat_add8 (s.reg x) nn⟩

/-- Settles O15: 8XY4 writes the sum, then the carry, both of the old values. -/
theorem addReportsCarry : Obligations.AddReportsCarry := by
  unfold Obligations.AddReportsCarry
  intro x y s
  refine ⟨toNat_packNibbles_code 0x8 0x4 x y, ?_⟩
  exact writesRegAndFlag_of_exec rfl (toNat_add8 (s.reg x) (s.reg y)) (toNat_carry (s.reg x) (s.reg y))

/-- Settles O16: the two subtractions differ only in which register is the minuend. -/
theorem subtractionsReportNoBorrow : Obligations.SubtractionsReportNoBorrow := by
  unfold Obligations.SubtractionsReportNoBorrow
  intro x y s
  refine ⟨toNat_packNibbles_code 0x8 0x5 x y, toNat_packNibbles_code 0x8 0x7 x y, ?_, ?_⟩
  · exact writesRegAndFlag_of_exec rfl (toNat_sub8 (s.reg x) (s.reg y)) (toNat_noborrow (s.reg x) (s.reg y))
  · exact writesRegAndFlag_of_exec rfl (toNat_sub8 (s.reg y) (s.reg x)) (toNat_noborrow (s.reg y) (s.reg x))

/-- Settles O17: each shift writes half or double of `VX`, then the bit that fell out; `VY` does not occur. -/
theorem shiftsMoveOneBitIntoTheFlag : Obligations.ShiftsMoveOneBitIntoTheFlag := by
  unfold Obligations.ShiftsMoveOneBitIntoTheFlag
  intro x y s
  refine ⟨toNat_packNibbles_code 0x8 0x6 x y, toNat_packNibbles_code 0x8 0xE x y, ?_, ?_⟩
  · exact writesRegAndFlag_of_exec rfl (toNat_shr8 (s.reg x)) (toNat_outLo (s.reg x))
  · exact writesRegAndFlag_of_exec rfl (toNat_shl8 (s.reg x)) (toNat_outHi (s.reg x))

/-- Settles O18: CXNN answers one `writeResult` of the masked input. -/
theorem randomByteIsMasked : Obligations.RandomByteIsMasked := by
  unfold Obligations.RandomByteIsMasked
  rintro x nn r s rfl
  refine ⟨toNat_packXI 0xC x nn, s.rnd &&& nn, writesReg_of_exec rfl, fun k _ => ?_⟩
  rw [BitVec.getLsbD_and, Bool.and_eq_true]

end Sys2Proof.Machine

/-!
The index register and memory instructions (43_index_memory.md R140 to R146): the three that write `I`, the bounds check
that the other three share, and O19 to O22.
-/

namespace Sys2Proof.Machine

/-! ### The words of format X in family F (R72) -/

theorem toNat_packNibbles_familyF (c d : BitVec 4) (x : Reg) :
    (packNibbles 0xF (regBits x) c d).toNat = 0xF000 + 16 * c.toNat + d.toNat + 256 * x.val := by
  have h : (packNibbles 0xF (regBits x) c d).toNat = 0xF000 + 256 * x.val + 16 * c.toNat + d.toNat :=
    toNat_packNibbles 0xF d x c.toFin
  omega

/-! ### What an advance of `PC` leaves in place -/

@[simp] theorem State.reg_advance (s : State) (q : Reg) : s.advance.reg q = s.reg q := rfl

@[simp] theorem State.byteAt_advance (s : State) (a : Nat) : s.advance.byteAt a = s.byteAt a := rfl

theorem changesOnly_setIndex_advance (s : State) (a : Word) :
    ChangesOnly (fun p => p = .pc ∨ p = .index) s (s.setIndex a).advance :=
  (changesOnly_setIndex s a).then (changesOnly_advance _) (fun _ => .inr) (fun _ => .inl)

theorem changesOnly_storeBytes_advance (s : State) (a : Nat) (bs : List Byte) :
    ChangesOnly (fun p => p = .pc ∨ ∃ c, p = .byte c ∧ a ≤ c ∧ c < a + bs.length) s (s.storeBytes a bs).advance :=
  (changesOnly_storeBytes s a bs).then (changesOnly_advance _) (fun _ => .inr) (fun _ => .inl)

theorem changesOnly_loadRegs_advance (s : State) (base count : Nat) (hc : count ≤ 16) :
    ChangesOnly (fun p => p = .pc ∨ ∃ q : Reg, p = .reg q ∧ q.val < count) s (s.loadRegs base count).advance :=
  (changesOnly_loadRegs s base count hc).then (changesOnly_advance _) (fun _ => .inr) (fun _ => .inl)

/-! ### New values of `I` (R141, R142) -/

theorem toNat_add_zext16 (a : Word) (b : Byte) : (a + zext16 b).toNat = (a.toNat + b.toNat) % 65536 := by
  rw [BitVec.toNat_add, zext16, BitVec.toNat_setWidth_of_le (by decide)]

/-- The glyph address does not wrap: the font ends at or below 0x200 (R5). -/
theorem toNat_glyphAddress {cfg : Config} (hcfg : cfg.wellFormed = true) (b : Byte) :
    (glyphAddress cfg.fontBase (lowNibble b)).toNat = cfg.fontBase + 5 * (b.toNat % 16) := by
  simp only [Config.wellFormed, Bool.and_eq_true, decide_eq_true_eq] at hcfg
  obtain ⟨-, hfont⟩ := hcfg
  rw [glyphAddress, lowNibble, BitVec.toNat_ofNat]
  omega

/-- An instruction that answers `setIndex` and an advance writes `I` and nothing else. -/
theorem writesIndex_of_exec {i : Instr} {s : State} {a : Word} {n : Nat}
    (h : exec i s = .next (s.setIndex a).advance) (ha : a.toNat = n) :
    ∃ t, exec i s = .next t ∧ t.index.toNat = n ∧ t.pc = s.pc + 2 ∧
      ChangesOnly (fun p => p = .pc ∨ p = .index) s t :=
  ⟨_, h, ha, rfl, changesOnly_setIndex_advance s a⟩

/-! ### The bounds check (R54, R146) -/

/-- The reported address fits its 17 bits. -/
theorem toNat_firstInvalid (base : Word) : (firstInvalid base.toNat).toNat = max base.toNat 4096 := by
  have hbase := base.isLt
  rw [firstInvalid, BitVec.toNat_ofNat]
  omega

theorem dataFaulted_raiseAt (s : State) :
    DataFaulted s (s.raiseAt (.addressOutOfRange (firstInvalid s.index.toNat))) :=
  ⟨_, toNat_firstInvalid s.index, faulted_raise s _ _⟩

/-- An instruction whose last access is at `I + k` raises when that address does not exist, and otherwise has its
effect. -/
theorem faults_or_completes {i : Instr} {s effect : State} {k : Nat} {Post : State → Prop}
    (h : exec i s = .next (s.guardRange (k + 1) effect)) (hpost : s.index.toNat + k < 4096 → Post effect) :
    ∃ t, exec i s = .next t ∧ (4096 ≤ s.index.toNat + k → DataFaulted s t) ∧
      (s.index.toNat + k < 4096 → Post t) := by
  refine ⟨_, h, ?_⟩
  rcases guardRange_cases s (k + 1) effect with ⟨hout, e⟩ | ⟨hin, e⟩
  · obtain ⟨-, hle⟩ := (outOfRange_iff _ _).1 hout
    rw [e]
    exact ⟨fun _ => dataFaulted_raiseAt s, fun hlt => absurd hlt (Nat.not_lt.2 hle)⟩
  · have hlt : s.index.toNat + k < 4096 := ((outOfRange_eq_false_iff _ _).1 hin).resolve_left k.succ_ne_zero
    rw [e]
    exact ⟨fun hle => absurd hlt (Nat.not_lt.2 hle), hpost⟩

/-! ### What the stores put into memory (R143, R144) -/

/-- A number up to that of a byte fits a byte. -/
theorem toNat_ofNat_of_le_toNat {b : Byte} {n : Nat} (h : n ≤ b.toNat) : (BitVec.ofNat 8 n).toNat = n := by
  rw [BitVec.toNat_ofNat]
  omega

/-- The decimal digits of a byte read back from three bytes inside memory. -/
theorem byteAt_storeBytes_bcdDigits {s : State} (hw : Memory.wf s.cfg.fontBase s.mem = true) (b : Byte) {a : Nat}
    (ha : a + 2 < 4096) :
    ((s.storeBytes a (bcdDigits b)).byteAt a).toNat = b.toNat / 100 ∧
      ((s.storeBytes a (bcdDigits b)).byteAt (a + 1)).toNat = b.toNat / 10 % 10 ∧
      ((s.storeBytes a (bcdDigits b)).byteAt (a + 2)).toNat = b.toNat % 10 := by
  have digit (k : Nat) (hk : k < 3) := State.byteAt_storeBytes_inside hw a (bcdDigits b) ha k hk
  have first : (s.storeBytes a (bcdDigits b)).byteAt a = BitVec.ofNat 8 (b.toNat / 100) := digit 0 (by decide)
  refine ⟨?_, ?_, ?_⟩
  · rw [first]
    exact toNat_ofNat_of_le_toNat (Nat.div_le_self _ _)
  · rw [digit 1 (by decide)]
    exact toNat_ofNat_of_le_toNat ((Nat.mod_le _ _).trans (Nat.div_le_self _ _))
  · rw [digit 2 (by decide)]
    exact toNat_ofNat_of_le_toNat (Nat.mod_le _ _)

/-- The stored registers read back from a run of bytes inside memory. -/
theorem byteAt_storeBytes_firstRegs {s : State} (hw : Memory.wf s.cfg.fontBase s.mem = true) {a count : Nat}
    (hc : count ≤ 16) (ha : a + count ≤ 4096) {q : Reg} (hq : q.val < count) :
    (s.storeBytes a (s.firstRegs count)).byteAt (a + q.val) = s.reg q := by
  have hlen := State.length_firstRegs s count hc
  rw [State.byteAt_storeBytes_inside hw a _ (by rwa [hlen]) q.val (by rwa [hlen])]
  exact State.getElem_firstRegs s count q.val _ q.isLt

/-! ### O19 to O22 -/

/-- Settles O20: past the bounds check FX33 answers one store of the three digits. -/
theorem decimalDigitsAreStored : Obligations.DecimalDigitsAreStored := by
  unfold Obligations.DecimalDigitsAreStored
  intro x s hw
  refine ⟨toNat_packNibbles_familyF 0x3 0x3 x, faults_or_completes rfl fun hin => ?_⟩
  obtain ⟨hhundreds, htens, hones⟩ := byteAt_storeBytes_bcdDigits hw (s.reg x) hin
  exact ⟨hhundreds, htens, hones, by simp, changesOnly_storeBytes_advance s _ (bcdDigits (s.reg x))⟩

/-- Settles O21: past the bounds check FX55 answers one store of the registers up to `VX`. -/
theorem registersAreStored : Obligations.RegistersAreStored := by
  unfold Obligations.RegistersAreStored
  intro x s hw
  refine ⟨toNat_packNibbles_familyF 0x5 0x5 x, faults_or_completes rfl fun hin => ⟨fun q hq => ?_, by simp, ?_⟩⟩
  · rw [State.byteAt_advance]
    exact byteAt_storeBytes_firstRegs hw x.isLt hin (Nat.lt_succ_of_le hq)
  · have h := changesOnly_storeBytes_advance s s.index.toNat (s.firstRegs (x.val + 1))
    rw [State.length_firstRegs s _ x.isLt] at h
    exact h.mono fun p => Or.imp_right fun ⟨a, hp, hle, hlt⟩ => ⟨a, hp, hle, Nat.le_of_lt_succ hlt⟩

/-- Settles O22: past the bounds check FX65 answers one load of the registers up to `VX`. -/
theorem registersAreLoaded : Obligations.RegistersAreLoaded := by
  unfold Obligations.RegistersAreLoaded
  intro x s
  refine ⟨toNat_packNibbles_familyF 0x6 0x5 x, faults_or_completes rfl fun _ => ⟨fun q hq => ?_, by simp, ?_⟩⟩
  · rw [State.reg_advance, State.reg_loadRegs s _ _ x.isLt, if_pos (Nat.lt_succ_of_le hq)]
  · exact (changesOnly_loadRegs_advance s _ _ x.isLt).mono fun p =>
      Or.imp_right fun ⟨q, hp, hlt⟩ => ⟨q, hp, Nat.le_of_lt_succ hlt⟩

/-- Settles O19: each of the three answers one `setIndex`; only the sum of FX1E can wrap. -/
theorem indexRegisterInstructions : Obligations.IndexRegisterInstructions := by
  unfold Obligations.IndexRegisterInstructions
  intro nnn x s hcfg
  refine ⟨toNat_packA 0xA nnn, toNat_packNibbles_familyF 0x1 0xE x, toNat_packNibbles_familyF 0x2 0x9 x, ?_, ?_, ?_⟩
  · exact writesIndex_of_exec rfl (toNat_addressOf nnn)
  · exact writesIndex_of_exec rfl (toNat_add_zext16 s.index (s.reg x))
  · exact writesIndex_of_exec rfl (toNat_glyphAddress hcfg (s.reg x))

end Sys2Proof.Machine

/-!
The display instructions (44_display.md R150 to R153): what 00E0 and DXYN answer, a draw said through the pixels that
`SpriteCovers` names, and O25 to O27.
-/

namespace Sys2Proof.Machine

/-! ### 00E0 and its snapshot (R96, R150) -/

theorem not_lit_of_blank {s : State} (h : s.fb = blankFrame) (px : Fin 64) (py : Fin 32) : ¬ s.Lit px py := by
  simp [State.Lit, pixelAt, h, blankFrame]

theorem changesOnly_setFrame_advance (s : State) (f : Frame) :
    ChangesOnly (fun p => p = .pc ∨ p = .dirty ∨ ∃ px py, p = .pixel px py) s (s.setFrame f).advance :=
  (changesOnly_setFrame s f).then (changesOnly_advance _) (fun _ => .inr) (fun _ => .inl)

/-- While the engine is `Running`, a dirty framebuffer is emitted once. -/
theorem emitSnapshot_of_dirty {s : State} (hrun : s.runState = .running) (hdirty : s.dirty = true) :
    s.emitSnapshot = { s with trace := s.trace ++ [s.fb], dirty := false } := if_pos ⟨hrun, hdirty⟩

/-- A ready step on 00E0 executes it and emits the cleared framebuffer. -/
theorem step_of_at_cls {s : State} (hready : s.Ready) (hat : s.At .cls) :
    step s = .next { (s.popEvent.setFrame blankFrame).advance with
      trace := s.trace ++ [blankFrame], dirty := false } := by
  have ⟨_, hrun, _⟩ := hready
  rw [step_of_at hready hat, executeAndEmit_next (i := .cls) rfl]
  exact congrArg Host.Outcome.next
    (emitSnapshot_of_dirty (s := (s.popEvent.setFrame blankFrame).advance) hrun rfl)

/-! ### The points a draw visits (R151, R152) -/

/-- The points of the sprite DXYN draws. -/
def State.drawPoints (s : State) (x y : Reg) (n : Nat) : List Point :=
  spritePoints (s.reg x).toNat (s.reg y).toNat (s.spriteBytes s.index.toNat n)

theorem State.drawn_eq_foldl (s : State) (x y : Reg) (n : Nat) :
    s.drawn x y n = (s.drawPoints x y n).foldl drawPoint (s.fb, false) := drawRows_eq_foldl _ _ _ _

theorem State.length_spriteBytes (s : State) (base n : Nat) : (s.spriteBytes base n).length = n := by
  simp [State.spriteBytes]

theorem State.getElem_spriteBytes (s : State) (base n : Nat) {r : Nat} (hr : r < (s.spriteBytes base n).length) :
    (s.spriteBytes base n)[r] = s.byteAt (base + r) := by
  simp [State.spriteBytes]

theorem State.drawPoints_apart (s : State) (x y : Reg) {n : Nat} (hn : n ≤ 32) :
    (s.drawPoints x y n).Pairwise Apart :=
  spritePoints_apart _ _ _ (by rwa [State.length_spriteBytes])

theorem State.mem_drawPoints {s : State} {x y : Reg} {n : Nat} {p : Point} :
    p ∈ s.drawPoints x y n ↔ ∃ r c, r < n ∧ c < 8 ∧
      p = ((s.reg x).toNat + c, (s.reg y).toNat + r, (s.byteAt (s.index.toNat + r)).getLsbD (7 - c)) := by
  simp only [State.drawPoints, spritePoints_mem, State.length_spriteBytes, State.getElem_spriteBytes, exists_prop]

theorem meets_iff (px py : Nat) (x : Fin 64) (y : Fin 32) :
    meets px py x y = true ↔ x.val = px % 64 ∧ y.val = py % 32 := by
  simp only [meets, Bool.and_eq_true, decide_eq_true_eq, Nat.mod_eq_of_lt x.isLt, Nat.mod_eq_of_lt y.isLt]
  exact and_congr eq_comm eq_comm

theorem covers_iff (ps : List Point) (x y : Nat) :
    covers ps x y = true ↔ ∃ p ∈ ps, p.2.2 = true ∧ meets p.1 p.2.1 x y = true := by
  simp only [covers, List.any_eq_true, Bool.and_eq_true]

/-- The pixels the points cover are those the statements name. -/
theorem covers_drawPoints (s : State) (x y : Reg) (n : Nat) (px : Fin 64) (py : Fin 32) :
    covers (s.drawPoints x y n) px py = true ↔ SpriteCovers s x y n px py := by
  simp only [covers_iff, State.mem_drawPoints, meets_iff, SpriteCovers]
  constructor
  · rintro ⟨_, ⟨r, c, hr, hc, rfl⟩, hbit, hpx, hpy⟩
    exact ⟨r, c, hr, hc, hbit, hpx, hpy⟩
  · rintro ⟨r, c, hr, hc, hbit, hpx, hpy⟩
    exact ⟨_, ⟨r, c, hr, hc, rfl⟩, hbit, hpx, hpy⟩

/-- A set bit on a lit point is a lit pixel that is covered. -/
theorem any_bit_and_lit_iff (ps : List Point) (f : Frame) :
    ps.any (fun p => p.2.2 && pixelAt f p.1 p.2.1) = true ↔
      ∃ (px : Fin 64) (py : Fin 32), pixelAt f px py = true ∧ covers ps px py = true := by
  simp only [List.any_eq_true, Bool.and_eq_true, covers_iff]
  constructor
  · rintro ⟨p, hp, hbit, hlit⟩
    have hmeets : meets p.1 p.2.1 (Fin.ofNat 64 p.1) (Fin.ofNat 32 p.2.1) = true := (meets_iff _ _ _ _).2 ⟨rfl, rfl⟩
    exact ⟨_, _, pixelAt_congr f hmeets ▸ hlit, p, hp, hbit, hmeets⟩
  · rintro ⟨px, py, hlit, p, hp, hbit, hmeets⟩
    exact ⟨p, hp, hbit, (pixelAt_congr f hmeets).trans hlit⟩

/-! ### The framebuffer and the collision of a draw (R151) -/

theorem State.pixelAt_drawn (s : State) (x y : Reg) {n : Nat} (hn : n ≤ 32) (px : Fin 64) (py : Fin 32) :
    pixelAt (s.drawn x y n).1 px py = true ↔ ¬ (s.Lit px py ↔ SpriteCovers s x y n px py) := by
  rw [State.drawn_eq_foldl, pixelAt_foldl_drawPoint _ _ (s.drawPoints_apart x y hn), ← covers_drawPoints, State.Lit,
    bne_iff_ne, ne_eq, Bool.eq_iff_iff]

theorem State.collision_drawn (s : State) (x y : Reg) {n : Nat} (hn : n ≤ 32) :
    (s.drawn x y n).2 = true ↔ ∃ px py, s.Lit px py ∧ SpriteCovers s x y n px py := by
  rw [State.drawn_eq_foldl, collision_foldl_drawPoint _ _ (s.drawPoints_apart x y hn), Bool.false_or,
    any_bit_and_lit_iff]
  simp only [covers_drawPoints, State.Lit]

/-! ### DXYN past its bounds check -/

/-- The effect of DXYN when the sprite lies inside memory. -/
def State.afterDraw (s : State) (x y : Reg) (n : Nat) : State :=
  ((s.setFrame (s.drawn x y n).1).setReg VF (flagByte (s.drawn x y n).2)).advance

theorem exec_drw_of_outside {s : State} {n : Nat} (x y : Reg) (h : 0 < n ∧ 4096 ≤ s.index.toNat + n - 1) :
    exec (.drw x y n) s = .next (s.raiseAt (.addressOutOfRange (firstInvalid s.index.toNat))) :=
  congrArg Host.Outcome.next (if_pos ((outOfRange_iff _ _).2 h))

theorem exec_drw_of_inside {s : State} {n : Nat} (x y : Reg) (h : ¬ (0 < n ∧ 4096 ≤ s.index.toNat + n - 1)) :
    exec (.drw x y n) s = .next (s.afterDraw x y n) :=
  congrArg Host.Outcome.next (if_neg (mt (outOfRange_iff _ _).1 h))

theorem changesOnly_afterDraw (s : State) (x y : Reg) (n : Nat) :
    ChangesOnly (fun p => p = .pc ∨ p = .dirty ∨ p = .reg VF ∨ ∃ px py, p = .pixel px py) s (s.afterDraw x y n) :=
  ((changesOnly_setFrame s _).then (changesOnly_setReg _ _ _)
    (fun _ => .inr ∘ Or.imp_right .inr) (fun _ => .inr ∘ .inr ∘ .inl)).trans
    ((changesOnly_advance _).mono fun _ => .inl)

theorem State.lit_afterDraw (s : State) (x y : Reg) {n : Nat} (hn : n < 16) (px : Fin 64) (py : Fin 32) :
    (s.afterDraw x y n).Lit px py ↔ ¬ (s.Lit px py ↔ SpriteCovers s x y n px py) :=
  s.pixelAt_drawn x y (by omega) px py

theorem State.reg_VF_afterDraw (s : State) (x y : Reg) (n : Nat) :
    (s.afterDraw x y n).reg VF = flagByte (s.drawn x y n).2 := by
  simp [State.afterDraw]

theorem State.reg_VF_afterDraw_of_collision {s : State} {x y : Reg} {n : Nat} (hn : n < 16)
    (h : ∃ px py, s.Lit px py ∧ SpriteCovers s x y n px py) : (s.afterDraw x y n).reg VF = 1 := by
  rw [State.reg_VF_afterDraw, (s.collision_drawn x y (by omega)).2 h]
  rfl

theorem State.reg_VF_afterDraw_of_no_collision {s : State} {x y : Reg} {n : Nat} (hn : n < 16)
    (h : ¬ ∃ px py, s.Lit px py ∧ SpriteCovers s x y n px py) : (s.afterDraw x y n).reg VF = 0 := by
  rw [State.reg_VF_afterDraw, Bool.eq_false_iff.2 (mt (s.collision_drawn x y (by omega)).1 h)]
  rfl

/-! ### The second draw (R153) -/

/-- A draw that leaves `VX` and `VY` as they were leaves the pixels of its sprite as they were. -/
theorem spriteCovers_afterDraw {s : State} {x y : Reg} {n : Nat}
    (h : x ≠ VF ∧ y ≠ VF ∨ (s.afterDraw x y n).reg VF = s.reg VF) (px : Fin 64) (py : Fin 32) :
    SpriteCovers (s.afterDraw x y n) x y n px py ↔ SpriteCovers s x y n px py := by
  have hframe := changesOnly_afterDraw s x y n
  have hreg (q : Reg) (hq : q ≠ VF ∨ (s.afterDraw x y n).reg VF = s.reg VF) :
      (s.afterDraw x y n).reg q = s.reg q := by
    by_cases hqf : q = VF
    · rw [hqf]
      exact hq.resolve_left (not_not_intro hqf)
    · exact hframe (.reg q) (by simpa using hqf)
  have hbyte (a : Nat) : (s.afterDraw x y n).byteAt a = s.byteAt a := hframe (.byte a) (by simp)
  have hindex : (s.afterDraw x y n).index = s.index := hframe .index (by simp)
  simp only [SpriteCovers, hbyte, hindex, hreg x (h.imp_left And.left), hreg y (h.imp_left And.right)]

/-! ### O25 to O27 -/

/-- Settles O25: 00E0 answers one `setFrame` of the blank frame, and a ready step on it adds the snapshot. -/
theorem clearMakesEveryPixelUnlit : Obligations.ClearMakesEveryPixelUnlit := by
  unfold Obligations.ClearMakesEveryPixelUnlit
  refine ⟨rfl, fun s => ?_, fun s hready hat => ?_⟩
  · exact ⟨_, rfl, not_lit_of_blank rfl, rfl, rfl, changesOnly_setFrame_advance s blankFrame⟩
  · exact ⟨_, step_of_at_cls hready hat, not_lit_of_blank rfl, rfl, rfl⟩

/-- Settles O26: past the bounds check no pixel is met twice, so each is toggled by the one set bit that covers it. -/
theorem drawTogglesTheSpritePixels : Obligations.DrawTogglesTheSpritePixels := by
  unfold Obligations.DrawTogglesTheSpritePixels
  intro x y n s hn
  constructor
  · have hnibble : (BitVec.ofNat 4 n).toNat = n := Nat.mod_eq_of_lt hn
    exact (toNat_packNibbles 0xD (BitVec.ofNat 4 n) x y).trans (by rw [hnibble]; rfl)
  · by_cases hout : 0 < n ∧ 4096 ≤ s.index.toNat + n - 1
    · exact ⟨_, exec_drw_of_outside x y hout, fun _ => dataFaulted_raiseAt s, fun hin => absurd hout hin⟩
    · exact ⟨_, exec_drw_of_inside x y hout, fun h => absurd h hout, fun _ =>
        ⟨s.lit_afterDraw x y hn, State.reg_VF_afterDraw_of_collision hn, State.reg_VF_afterDraw_of_no_collision hn,
          rfl, rfl, changesOnly_afterDraw s x y n⟩⟩

/-- Settles O27: the second draw covers the same pixels, and toggling twice is no change. -/
theorem secondDrawRestoresTheScreen : Obligations.SecondDrawRestoresTheScreen := by
  unfold Obligations.SecondDrawRestoresTheScreen
  intro x y n s t u hn hin ht hu hkept
  rw [exec_drw_of_inside x y hin] at ht
  cases ht
  have hindex : (s.afterDraw x y n).index = s.index := rfl
  rw [exec_drw_of_inside x y (by rwa [hindex])] at hu
  cases hu
  have hcovers := spriteCovers_afterDraw hkept
  refine ⟨fun px py => ?_, fun hclear ⟨px, py, hcov⟩ => ⟨?_, ?_⟩⟩
  · rw [State.lit_afterDraw _ x y hn, State.lit_afterDraw s x y hn, hcovers]
    tauto
  · exact State.reg_VF_afterDraw_of_no_collision hn fun ⟨px, py, hlit, hcov⟩ => hclear px py hcov hlit
  · refine State.reg_VF_afterDraw_of_collision hn ⟨px, py, ?_, (hcovers px py).2 hcov⟩
    rw [State.lit_afterDraw s x y hn]
    exact fun hiff => hclear px py hcov (hiff.2 hcov)

end Sys2Proof.Machine

/-!
The keypad skips and the timer moves (45_timers_keys.md R160 to R166): one key line as the condition of a skip, writes of
`DT` and `ST` with their frames, and O11 and O29.
-/

namespace Sys2Proof.Machine

/-! ### The words of format X with an opcode in the last byte (R72) -/

theorem toNat_packNibbles_formatX (a c d : BitVec 4) (x : Reg) :
    (packNibbles a (regBits x) c d).toNat = 4096 * a.toNat + 16 * c.toNat + d.toNat + 256 * x.val := by
  have h : (packNibbles a (regBits x) c d).toNat = 4096 * a.toNat + 256 * x.val + 16 * c.toNat + d.toNat :=
    toNat_packNibbles a d x c.toFin
  omega

/-! ### The key a skip tests (R160, R161) -/

theorem keyDown_lowNibble_iff (s : State) (b : Byte) :
    s.keyDown (lowNibble b) = true ↔ s.key.getLsbD (b.toNat % 16) = true := Iff.rfl

theorem not_keyDown_lowNibble_iff (s : State) (b : Byte) :
    (!s.keyDown (lowNibble b)) = true ↔ s.key.getLsbD (b.toNat % 16) = false := by
  rw [Bool.not_eq_true', State.keyDown, lowNibble]

/-! ### Writes of the timers (R165, R166) -/

theorem changesOnly_setDt_advance (s : State) (b : Byte) :
    ChangesOnly (fun p => p = .pc ∨ p = .dt) s (s.setDt b).advance :=
  (changesOnly_setDt s b).then (changesOnly_advance _) (fun _ => .inr) (fun _ => .inl)

theorem changesOnly_setSt_advance (s : State) (b : Byte) :
    ChangesOnly (fun p => p = .pc ∨ p = .st) s (s.setSt b).advance :=
  (changesOnly_setSt s b).then (changesOnly_advance _) (fun _ => .inr) (fun _ => .inl)

/-- The sound output is high exactly while the sound timer is not zero. -/
theorem soundOn_iff_st_ne_zero (s : State) : s.outputs.soundOn = true ↔ s.st ≠ 0 :=
  calc s.outputs.soundOn = true
    _ ↔ 0 < s.st.toNat := decide_eq_true_iff
    _ ↔ s.st.toNat ≠ (0 : Byte).toNat := Nat.pos_iff_ne_zero
    _ ↔ s.st ≠ 0 := not_congr BitVec.toNat_inj

/-! ### O11 and O29 -/

/-- Settles O11: both answer `skipIf` of the one key line, EXA1 of its negation. -/
theorem skipsTestOneKey : Obligations.SkipsTestOneKey := by
  unfold Obligations.SkipsTestOneKey
  intro x s
  refine ⟨toNat_packNibbles_formatX 0xE 0x9 0xE x, toNat_packNibbles_formatX 0xE 0xA 0x1 x, ?_, ?_⟩
  · exact skips_of_exec rfl (keyDown_lowNibble_iff s (s.reg x))
  · exact skips_of_exec rfl (not_keyDown_lowNibble_iff s (s.reg x))

/-- Settles O29: FX07 answers one `writeResult` of `DT`; FX15 and FX18 answer one write of a timer and an advance. -/
theorem timerInstructionsMoveOneByte : Obligations.TimerInstructionsMoveOneByte := by
  unfold Obligations.TimerInstructionsMoveOneByte
  intro x s
  refine ⟨toNat_packNibbles_familyF 0x0 0x7 x, toNat_packNibbles_familyF 0x1 0x5 x, toNat_packNibbles_familyF 0x1 0x8 x,
    ?_, ?_, ?_⟩
  · exact writesReg_of_exec rfl
  · exact ⟨_, rfl, rfl, rfl, changesOnly_setDt_advance s (s.reg x)⟩
  · exact ⟨_, rfl, rfl, soundOn_iff_st_ne_zero (s.setSt (s.reg x)).advance, rfl, changesOnly_setSt_advance s (s.reg x)⟩

end Sys2Proof.Machine

/-!
The timer tick (60_exceptions.md R185 to R187): the step that delivers it, the run of one clock with a tick and a cycle,
and O31 and O33.
-/

namespace Sys2Proof.Machine

/-! ### What an instruction and the snapshot leave alone -/

/-- The events still to come are the same after an instruction, whether it raises or completes. -/
theorem exec_events {i : Instr} {s t : State} (h : exec i s = .next t) : t.events = s.events := by
  rcases exec_cases h with ⟨_, -, rfl⟩ | hc
  · rfl
  · exact (runKept_of_touches hc).events

@[simp] theorem State.emitSnapshot_reg (s : State) (r : Reg) : s.emitSnapshot.reg r = s.reg r :=
  changesOnly_emitSnapshot s (.reg r) (by simp)

@[simp] theorem State.emitSnapshot_dt (s : State) : s.emitSnapshot.dt = s.dt :=
  changesOnly_emitSnapshot s .dt (by simp)

@[simp] theorem State.emitSnapshot_st (s : State) : s.emitSnapshot.st = s.st :=
  changesOnly_emitSnapshot s .st (by simp)

@[simp] theorem State.emitSnapshot_events (s : State) : s.emitSnapshot.events = s.events :=
  changesOnly_emitSnapshot s .events (by simp)

/-! ### Runs of waiting events -/

theorem step_of_events_cons {s : State} {e : Event} {rest : List Event} (h : s.events = e :: rest) :
    step s = deliver e { s with events := rest } := by
  rw [step, nextEvent, h]

theorem runSteps_succ_of_step {s t : State} (n : Nat) (h : step s = .next t) : runSteps (n + 1) s = runSteps n t := by
  rw [runSteps, h]

/-! ### One clock with a tick and a cycle (R44, R187) -/

/-- With no other strobe high, the tick and then the cycle follow the input lines. -/
theorem Clock.events_of_tick_and_cycle {c : Clock} (hrst : c.rst = false) (hstop : c.stop = false)
    (hpause : c.pause = false) (hresume : c.resume = false) (hstart : c.start = false) (hload : c.load = none)
    (htick : c.tick60 = true) (hcycle : c.cycleEn = true) :
    c.events = [.keyChange c.key, .rndChange c.rnd, .tick, .cycle] := by
  simp [Clock.events, Clock.startAndLoad, Clock.loadStrobe, strobe, *]

/-- The state before the cycle of such a clock: the input lines taken, both timers counted down, the cycle waiting. -/
def State.beforeCycleOf (s : State) (c : Clock) : State :=
  { s with key := c.key, rnd := c.rnd, events := [.cycle] }.tick

@[simp] theorem State.beforeCycleOf_dt (s : State) (c : Clock) : (s.beforeCycleOf c).dt = countDown s.dt := rfl
@[simp] theorem State.beforeCycleOf_popEvent_events (s : State) (c : Clock) :
    (s.beforeCycleOf c).popEvent.events = [] := rfl
@[simp] theorem State.beforeCycleOf_reg (s : State) (c : Clock) (r : Reg) : (s.beforeCycleOf c).reg r = s.reg r := rfl

/-- The four events in order: the two input lines, the tick, and the cycle, which executes the instruction at `PC` of
`beforeCycleOf`. -/
theorem runSteps_tick_and_cycle {c : Clock} {s t : State} {i : Instr}
    (hclock : c.events = [.keyChange c.key, .rndChange c.rnd, .tick, .cycle]) (hevents : s.events = c.events)
    (hrun : s.runState = .running) (hstop : s.stopReq = false) (hfetch : s.pc.toNat + 1 < 4096) (hat : s.At i)
    (hexec : exec i (s.beforeCycleOf c).popEvent = .next t) : runSteps c.events.length s = some t.emitSnapshot := by
  have hready : (s.beforeCycleOf c).Ready := ⟨rfl, hrun, hstop, hfetch⟩
  have hcycle : step (s.beforeCycleOf c) = .next t.emitSnapshot := by
    rw [step_of_at hready hat, executeAndEmit_next hexec]
  rw [hclock] at hevents ⊢
  calc runSteps 4 s
    _ = runSteps 3 { s with key := c.key, events := [.rndChange c.rnd, .tick, .cycle] } :=
      runSteps_succ_of_step 3 (step_of_events_cons hevents)
    _ = runSteps 2 { s with key := c.key, rnd := c.rnd, events := [.tick, .cycle] } :=
      runSteps_succ_of_step 2 (step_of_events_cons (e := .rndChange c.rnd) rfl)
    _ = runSteps 1 (s.beforeCycleOf c) := runSteps_succ_of_step 1 (step_of_tick rfl)
    _ = some t.emitSnapshot := runSteps_succ_of_step 0 hcycle

/-! ### O31 and O33 -/

/-- Settles O31: the step is the tick of the state without its event; both timers count down. -/
theorem tickCountsBothTimersDown : Obligations.TickCountsBothTimersDown := by
  unfold Obligations.TickCountsBothTimersDown
  intro s hevent
  refine ⟨s.popEvent.tick, step_of_tick hevent, toNat_countDown s.dt, toNat_countDown s.st, ?_⟩
  exact (changesOnly_popEvent s).then (changesOnly_tick _) (fun _ hp => .inr (.inr hp))
    (fun _ hp => hp.elim .inl fun hst => .inr (.inl hst))

/-- Settles O33: the cycle executes on `beforeCycleOf`, where `DT` is counted down already; what the three
instructions do there is O29. -/
theorem tickComesBeforeCycleInOneClock : Obligations.TickComesBeforeCycleInOneClock := by
  unfold Obligations.TickComesBeforeCycleInOneClock
  intro c s x hrst hstop hpause hresume hstart hload htick hcycle hevents hrun hreq hfetch
  have hclock := Clock.events_of_tick_and_cycle hrst hstop hpause hresume hstart hload htick hcycle
  have hrunTo {i : Instr} {t : State} (hat : s.At i) (hexec : exec i (s.beforeCycleOf c).popEvent = .next t) :
      runSteps c.events.length s = some t.emitSnapshot ∧ t.emitSnapshot.events = [] := by
    refine ⟨runSteps_tick_and_cycle hclock hevents hrun hreq hfetch hat hexec, ?_⟩
    rw [State.emitSnapshot_events, exec_events hexec, State.beforeCycleOf_popEvent_events]
  obtain ⟨-, -, -, ⟨t, hexec, hreg, -, hframe⟩, ⟨u, huexec, hdt, -, -⟩, ⟨w, hwexec, hst, -, -, -⟩⟩ :=
    timerInstructionsMoveOneByte x (s.beforeCycleOf c).popEvent
  refine ⟨fun hat => ?_, fun hat => ?_, fun hat => ?_⟩
  · have ⟨hruns, hdone⟩ := hrunTo hat hexec
    have hdt : t.dt = (s.beforeCycleOf c).popEvent.dt := hframe .dt (by simp)
    refine ⟨_, hruns, hdone, ?_, ?_⟩
    · rw [State.emitSnapshot_reg, hreg, State.popEvent_dt, State.beforeCycleOf_dt, toNat_countDown]
    · rw [State.emitSnapshot_dt, hdt, State.popEvent_dt, State.beforeCycleOf_dt, toNat_countDown]
  · have ⟨hruns, hdone⟩ := hrunTo hat huexec
    exact ⟨_, hruns, hdone, by rw [State.emitSnapshot_dt, hdt, State.popEvent_reg, State.beforeCycleOf_reg]⟩
  · have ⟨hruns, hdone⟩ := hrunTo hat hwexec
    exact ⟨_, hruns, hdone, by rw [State.emitSnapshot_st, hst, State.popEvent_reg, State.beforeCycleOf_reg]⟩

end Sys2Proof.Machine

/-!
The opcode table (30_encoding.md R75 to R78): no word hits two rows, each row gives back the word it was read from, the
words no row is hit by; and O1 to O3, O5 and O6.
-/

namespace Sys2Proof

/-! ### No word hits two rows (R75) -/

/-- The codes of two rows differ in a bit that both masks compare. -/
def OpcodeRow.Disjoint (r r' : OpcodeRow) : Prop := r.code &&& r'.mask ≠ r'.code &&& r.mask

theorem OpcodeRow.hits_iff (r : OpcodeRow) (w : Word) : r.hits w = true ↔ w &&& r.mask = r.code := decide_eq_true_iff

theorem OpcodeRow.Disjoint.not_hits_both {r r' : OpcodeRow} (h : r.Disjoint r') {w : Word} (hr : r.hits w = true) :
    r'.hits w = false := by
  rw [← Bool.not_eq_true, OpcodeRow.hits_iff]
  rw [OpcodeRow.hits_iff] at hr
  intro hr'
  refine h ?_
  rw [← hr, ← hr', BitVec.and_assoc, BitVec.and_assoc, BitVec.and_comm r.mask]

theorem opcodeTable_pairwise_disjoint : opcodeTable.Pairwise OpcodeRow.Disjoint := by
  unfold OpcodeRow.Disjoint
  decide

/-- Two rows that the same word hits stand at the same place of the table. -/
theorem opcodeTable_index_unique {w : Word} {j k : Nat} {r r' : OpcodeRow} (hj : opcodeTable[j]? = some r)
    (hk : opcodeTable[k]? = some r') (hr : r.hits w = true) (hr' : r'.hits w = true) : j = k := by
  obtain ⟨hjlt, rfl⟩ := List.getElem?_eq_some_iff.1 hj
  obtain ⟨hklt, rfl⟩ := List.getElem?_eq_some_iff.1 hk
  have apart := List.pairwise_iff_getElem.1 opcodeTable_pairwise_disjoint
  rcases Nat.lt_trichotomy j k with hlt | heq | hlt
  · exact absurd hr' (Bool.eq_false_iff.1 ((apart j k hjlt hklt hlt).not_hits_both hr))
  · exact heq
  · exact absurd hr (Bool.eq_false_iff.1 ((apart k j hklt hjlt hlt).not_hits_both hr'))

/-! ### What the decoder answers (R93) -/

/-- The row a word hits decides what it decodes to. -/
theorem decodeWord_of_hits {w : Word} {k : Nat} {r : OpcodeRow} (hk : opcodeTable[k]? = some r)
    (hr : r.hits w = true) : decodeWord w = .ok (r.build w) := by
  unfold decodeWord
  split
  · next r' hf =>
    obtain ⟨j, hj⟩ := List.mem_iff_getElem?.1 (List.mem_of_find?_eq_some hf)
    have hjk := opcodeTable_index_unique hj hk (List.find?_some (p := fun r : OpcodeRow => r.hits w) hf) hr
    rw [hjk, hk] at hj
    cases hj
    rfl
  · next hf => exact absurd hr (List.find?_eq_none.1 hf r (List.mem_of_getElem? hk))

/-- A decoded instruction was built by a row of the table that the word hits. -/
theorem hits_of_decodeWord {w : Word} {i : Instr} (h : decodeWord w = .ok i) :
    ∃ r ∈ opcodeTable, r.hits w = true ∧ r.build w = i := by
  unfold decodeWord at h
  split at h
  · next r hf =>
    cases h
    exact ⟨r, List.mem_of_find?_eq_some hf, List.find?_some (p := fun r : OpcodeRow => r.hits w) hf, rfl⟩
  · contradiction

theorem decodeWord_eq_unknown_iff (w : Word) :
    decodeWord w = .error (.unknown w) ↔ ∀ r ∈ opcodeTable, ¬ r.hits w = true := by
  rw [← List.find?_eq_none]
  unfold decodeWord
  split
  · next hf => simp [hf]
  · next hf => simp [hf]

theorem decode_encode_append (i : Instr) (rest : List Byte) :
    decode (encode i ++ rest) = (decodeWord (encodeWord i)).map (fun i => (i, rest)) := by
  simp only [encode, List.cons_append, List.nil_append, decode, wordOfBytes_split]
  cases decodeWord (encodeWord i) <;> rfl

/-! ### Each row gives back the word it was read from (R72) -/

section RoundTrip
variable {code w : Word} {op c d : BitVec 4} {build : Word → Instr}

theorem packA_of_hits (hm : code &&& 0xF000 = code) (hop : fieldOp code = op)
    (h : OpcodeRow.hits ⟨code, 0xF000, build⟩ w = true) : packA op (fieldNNN w) = w := by
  rw [← hop, ← op_of_hits hm h, packA_fields]

theorem packXI_of_hits (hm : code &&& 0xF000 = code) (hop : fieldOp code = op)
    (h : OpcodeRow.hits ⟨code, 0xF000, build⟩ w = true) : packXI op (fieldX w) (fieldNN w) = w := by
  rw [← hop, ← op_of_hits hm h, packXI_fields]

/-- Format XYN: the word carries its last nibble. -/
theorem packNibbles_of_hits_op (hm : code &&& 0xF000 = code) (hop : fieldOp code = op)
    (h : OpcodeRow.hits ⟨code, 0xF000, build⟩ w = true) :
    packNibbles op (regBits (fieldX w)) (regBits (fieldY w)) (BitVec.ofNat 4 (fieldN w)) = w := by
  rw [← hop, ← op_of_hits hm h, packNibbles_fields]

/-- Format XY: the last nibble is the row's. -/
theorem packNibbles_of_hits_op_n (hm : code &&& 0xF00F = code) (hop : fieldOp code = op)
    (hd : BitVec.ofNat 4 (fieldN code) = d) (h : OpcodeRow.hits ⟨code, 0xF00F, build⟩ w = true) :
    packNibbles op (regBits (fieldX w)) (regBits (fieldY w)) d = w := by
  obtain ⟨hop', hn⟩ := op_n_of_hits hm h
  rw [← hop, ← hd, ← hop', ← hn, packNibbles_fields]

theorem fieldY_fieldN_of_fieldNN {w w' : Word} (h : fieldNN w = fieldNN w') :
    fieldY w = fieldY w' ∧ fieldN w = fieldN w' := by
  have hnat := congrArg BitVec.toNat h
  rw [toNat_fieldNN, toNat_fieldNN] at hnat
  have hn := fieldN_lt w
  have hn' := fieldN_lt w'
  exact ⟨Fin.ext (by omega), by omega⟩

/-- Format X: the last byte is the row's. -/
theorem packNibbles_of_hits_op_nn (hm : code &&& 0xF0FF = code) (hop : fieldOp code = op)
    (hc : regBits (fieldY code) = c) (hd : BitVec.ofNat 4 (fieldN code) = d)
    (h : OpcodeRow.hits ⟨code, 0xF0FF, build⟩ w = true) : packNibbles op (regBits (fieldX w)) c d = w := by
  obtain ⟨hop', hnn⟩ := op_nn_of_hits hm h
  obtain ⟨hy, hn⟩ := fieldY_fieldN_of_fieldNN hnn
  rw [← hop, ← hc, ← hd, ← hop', ← hy, ← hn, packNibbles_fields]

end RoundTrip

/-- What the row builds from a word it is hit by is well-formed and has that word. -/
def OpcodeRow.RoundTrips (r : OpcodeRow) : Prop :=
  ∀ w, r.hits w = true → (r.build w).wellFormed = true ∧ encodeWord (r.build w) = w

theorem opcodeRowsLow_roundTrip : ∀ r ∈ opcodeRowsLow, r.RoundTrips := by
  simp only [opcodeRowsLow, List.forall_mem_cons]
  refine ⟨?_, ?_, ?_, ?_, ?_, ?_, ?_, ?_, ?_, List.forall_mem_nil _⟩ <;> intro w h
  iterate 2 exact ⟨rfl, (word_of_hits h).symm⟩
  iterate 2 exact ⟨rfl, packA_of_hits rfl rfl h⟩
  iterate 2 exact ⟨rfl, packXI_of_hits rfl rfl h⟩
  · exact ⟨rfl, packNibbles_of_hits_op_n rfl rfl rfl h⟩
  iterate 2 exact ⟨rfl, packXI_of_hits rfl rfl h⟩

theorem opcodeRowsAlu_roundTrip : ∀ r ∈ opcodeRowsAlu, r.RoundTrips := by
  simp only [opcodeRowsAlu, List.forall_mem_cons]
  refine ⟨?_, ?_, ?_, ?_, ?_, ?_, ?_, ?_, ?_, ?_, List.forall_mem_nil _⟩ <;> intro w h
  iterate 10 exact ⟨rfl, packNibbles_of_hits_op_n rfl rfl rfl h⟩

theorem opcodeRowsHigh_roundTrip : ∀ r ∈ opcodeRowsHigh, r.RoundTrips := by
  simp only [opcodeRowsHigh, List.forall_mem_cons]
  refine ⟨?_, ?_, ?_, ?_, ?_, ?_, ?_, ?_, ?_, ?_, ?_, ?_, ?_, ?_, ?_, List.forall_mem_nil _⟩ <;> intro w h
  iterate 2 exact ⟨rfl, packA_of_hits rfl rfl h⟩
  · exact ⟨rfl, packXI_of_hits rfl rfl h⟩
  · exact ⟨decide_eq_true (fieldN_lt w), packNibbles_of_hits_op rfl rfl h⟩
  iterate 11 exact ⟨rfl, packNibbles_of_hits_op_nn rfl rfl rfl rfl h⟩

theorem opcodeTable_roundTrip {r : OpcodeRow} (hr : r ∈ opcodeTable) : r.RoundTrips := by
  simp only [opcodeTable, List.mem_append] at hr
  rcases hr with (hlow | halu) | hhigh
  · exact opcodeRowsLow_roundTrip r hlow
  · exact opcodeRowsAlu_roundTrip r halu
  · exact opcodeRowsHigh_roundTrip r hhigh

/-- The word of every well-formed instruction hits the row that builds it. -/
theorem encodedRow (i : Instr) : Laws.EncodedRow.Statement i := by
  open Laws.EncodedRow in
  cases i with
  | cls => exact cls
  | ret => exact ret
  | jp nnn => exact jp nnn
  | call nnn => exact call nnn
  | seImm x nn => exact seImm x nn
  | sneImm x nn => exact sneImm x nn
  | seReg x y => exact seReg x y
  | ldImm x nn => exact ldImm x nn
  | addImm x nn => exact addImm x nn
  | ldReg x y => exact ldReg x y
  | orReg x y => exact orReg x y
  | andReg x y => exact andReg x y
  | xorReg x y => exact xorReg x y
  | addReg x y => exact addReg x y
  | subReg x y => exact subReg x y
  | shr x y => exact shr x y
  | subn x y => exact subn x y
  | shl x y => exact shl x y
  | sneReg x y => exact sneReg x y
  | ldI nnn => exact ldI nnn
  | jpV0 nnn => exact jpV0 nnn
  | rnd x nn => exact rnd x nn
  | drw x y n => exact drw x y n
  | skp x => exact skp x
  | sknp x => exact sknp x
  | ldVxDt x => exact ldVxDt x
  | ldVxK x => exact ldVxK x
  | ldDtVx x => exact ldDtVx x
  | ldStVx x => exact ldStVx x
  | addI x => exact addI x
  | ldF x => exact ldF x
  | ldB x => exact ldB x
  | storeRegs x => exact storeRegs x
  | loadRegs x => exact loadRegs x

theorem decodeWord_encodeWord {i : Instr} (h : i.wellFormed = true) : decodeWord (encodeWord i) = .ok i := by
  obtain ⟨k, r, hk, hr, hbuild⟩ := encodedRow i h
  rw [decodeWord_of_hits hk hr, hbuild]

theorem encodeWord_of_decodeWord {w : Word} {i : Instr} (h : decodeWord w = .ok i) :
    i.wellFormed = true ∧ encodeWord i = w := by
  obtain ⟨r, hmem, hr, rfl⟩ := hits_of_decodeWord h
  exact opcodeTable_roundTrip hmem w hr

/-! ### When no row is hit (R78) -/

section HitsIff
variable {code w : Word} {build : Word → Instr}

theorem hits_op_iff (hm : code &&& 0xF000 = code) :
    OpcodeRow.hits ⟨code, 0xF000, build⟩ w = true ↔ fieldOp w = fieldOp code :=
  ⟨op_of_hits hm, hits_op hm⟩

theorem hits_op_n_iff (hm : code &&& 0xF00F = code) :
    OpcodeRow.hits ⟨code, 0xF00F, build⟩ w = true ↔ fieldOp w = fieldOp code ∧ fieldN w = fieldN code :=
  ⟨op_n_of_hits hm, fun ⟨hop, hn⟩ => hits_op_n hm hop hn⟩

theorem hits_op_nn_iff (hm : code &&& 0xF0FF = code) :
    OpcodeRow.hits ⟨code, 0xF0FF, build⟩ w = true ↔ fieldOp w = fieldOp code ∧ fieldNN w = fieldNN code :=
  ⟨op_nn_of_hits hm, fun ⟨hop, hnn⟩ => hits_op_nn hm hop hnn⟩

theorem hits_word_iff : OpcodeRow.hits ⟨code, 0xFFFF, build⟩ w = true ↔ w = code := by
  rw [OpcodeRow.hits_iff]
  exact and_FFFF w code

end HitsIff

theorem not_hits_low_iff (w : Word) : (∀ r ∈ opcodeRowsLow, ¬ r.hits w = true) ↔
    w ≠ 0x00E0 ∧ w ≠ 0x00EE ∧ fieldOp w ≠ 0x1 ∧ fieldOp w ≠ 0x2 ∧ fieldOp w ≠ 0x3 ∧ fieldOp w ≠ 0x4 ∧
      ¬ (fieldOp w = 0x5 ∧ fieldN w = 0) ∧ fieldOp w ≠ 0x6 ∧ fieldOp w ≠ 0x7 := by
  simp (disch := decide) only [opcodeRowsLow, List.forall_mem_cons, List.not_mem_nil, false_implies, implies_true,
    and_true, hits_word_iff, hits_op_iff, hits_op_n_iff]
  exact Iff.rfl

theorem not_hits_alu_iff (w : Word) : (∀ r ∈ opcodeRowsAlu, ¬ r.hits w = true) ↔
    ¬ (fieldOp w = 0x8 ∧ fieldN w ∈ [0x0, 0x1, 0x2, 0x3, 0x4, 0x5, 0x6, 0x7, 0xE]) ∧
      ¬ (fieldOp w = 0x9 ∧ fieldN w = 0) := by
  simp (disch := decide) only [opcodeRowsAlu, List.forall_mem_cons, List.not_mem_nil, false_implies, implies_true,
    and_true, hits_op_n_iff]
  simp only [List.mem_cons, List.not_mem_nil, or_false, and_or_left, not_or, and_assoc]
  exact Iff.rfl

theorem not_hits_high_iff (w : Word) : (∀ r ∈ opcodeRowsHigh, ¬ r.hits w = true) ↔
    fieldOp w ≠ 0xA ∧ fieldOp w ≠ 0xB ∧ fieldOp w ≠ 0xC ∧ fieldOp w ≠ 0xD ∧
      ¬ (fieldOp w = 0xE ∧ fieldNN w ∈ ([0x9E, 0xA1] : List Byte)) ∧
      ¬ (fieldOp w = 0xF ∧
        fieldNN w ∈ ([0x07, 0x0A, 0x15, 0x18, 0x1E, 0x29, 0x33, 0x55, 0x65] : List Byte)) := by
  simp (disch := decide) only [opcodeRowsHigh, List.forall_mem_cons, List.not_mem_nil, false_implies, implies_true,
    and_true, hits_op_iff, hits_op_nn_iff]
  simp only [List.mem_cons, List.not_mem_nil, or_false, and_or_left, not_or, and_assoc]
  exact Iff.rfl

/-- The nibbles of the nine ALU rows and the seven others are all there are. -/
theorem not_mem_alu_iff {n : Nat} (hn : n < 16) :
    n ∉ [0x0, 0x1, 0x2, 0x3, 0x4, 0x5, 0x6, 0x7, 0xE] ↔ n ∈ [0x8, 0x9, 0xA, 0xB, 0xC, 0xD, 0xF] := by
  interval_cases n <;> decide

theorem ne_cls_ret_of_fieldOp {w : Word} (h : fieldOp w ≠ 0x0) : w ≠ 0x00E0 ∧ w ≠ 0x00EE :=
  ⟨fun hw => h (hw ▸ rfl), fun hw => h (hw ▸ rfl)⟩

/-- The sixteen families. -/
theorem family_cases (op : BitVec 4) : op = 0x0 ∨ op = 0x1 ∨ op = 0x2 ∨ op = 0x3 ∨ op = 0x4 ∨ op = 0x5 ∨ op = 0x6 ∨
    op = 0x7 ∨ op = 0x8 ∨ op = 0x9 ∨ op = 0xA ∨ op = 0xB ∨ op = 0xC ∨ op = 0xD ∨ op = 0xE ∨ op = 0xF := by
  revert op
  decide

end Sys2Proof

namespace Sys2Proof.Machine

/-! ### O1 to O3, O5, O6 -/

/-- Settles O1: the word of an instruction hits its own row and no other; each row gives back the word it is hit by. -/
theorem decodeAndEncodeAgree : Obligations.DecodeAndEncodeAgree := by
  unfold Obligations.DecodeAndEncodeAgree
  refine ⟨fun i hi => ⟨decodeWord_encodeWord hi, fun rest => ?_⟩, fun w i => encodeWord_of_decodeWord⟩
  rw [decode_encode_append, decodeWord_encodeWord hi]
  rfl

/-- Settles O2: the codes of any two rows differ in a bit that both compare. -/
theorem noWordMatchesTwoRows : Obligations.NoWordMatchesTwoRows := by
  unfold Obligations.NoWordMatchesTwoRows
  exact ⟨rfl, fun w j k r r' => opcodeTable_index_unique⟩

/-- Settles O3: a word is refused when no row is hit; family by family, these are the words listed. -/
theorem unknownWordsAreTheListedOnes : Obligations.UnknownWordsAreTheListedOnes := by
  unfold Obligations.UnknownWordsAreTheListedOnes
  intro w
  rw [decodeWord_eq_unknown_iff, ← not_mem_alu_iff (fieldN_lt w)]
  simp only [opcodeTable, List.forall_mem_append, not_hits_low_iff, not_hits_alu_iff, not_hits_high_iff]
  by_cases h0 : fieldOp w = 0x0
  · simp [h0]
  · obtain ⟨hcls, hret⟩ := ne_cls_ret_of_fieldOp h0
    simp only [ne_eq, hcls, hret, not_false_eq_true, true_and]
    rcases (family_cases (fieldOp w)).resolve_left h0 with
      h | h | h | h | h | h | h | h | h | h | h | h | h | h | h <;> simp [h]

/-- Settles O5: the decoder evaluates each of the words. -/
theorem wordsReadAsTheirInstructions : Obligations.WordsReadAsTheirInstructions := by
  unfold Obligations.WordsReadAsTheirInstructions
  decide

/-- Settles O6: the fetched word is the word of the two bytes. -/
theorem fetchIsBigEndian : Obligations.FetchIsBigEndian := by
  unfold Obligations.FetchIsBigEndian
  intro s
  exact toNat_wordOfBytes _ _

end Sys2Proof.Machine

/-!
Every step answers a next state (70_reset_and_hazards.md R212), and the invariant of every run: what keeps it, operation
by operation, instruction by instruction and event by event; and O55, O57 and O58.
-/

namespace Sys2Proof.Machine

/-! ### Every step answers a next state -/

/-- Every arm answers a next state, a fault of the spec included (R170, R179). -/
theorem exec_total (i : Instr) (s : State) : ∃ t, exec i s = .next t := by
  cases i <;> exact ⟨_, rfl⟩

theorem runInstruction_total (s : State) : ∃ t, runInstruction s = .next t := by
  by_cases hfetch : s.pc.toNat + 1 < 4096
  · rcases hd : decodeWord s.fetchedWord with e | i
    · exact ⟨_, runInstruction_of_error hfetch hd⟩
    · obtain ⟨u, hu⟩ := exec_total i s
      exact ⟨_, (runInstruction_of_ok hfetch hd).trans (executeAndEmit_next hu)⟩
  · exact ⟨_, runInstruction_of_outside (Nat.le_of_not_lt hfetch)⟩

theorem cycle_total (s : State) : ∃ t, cycle s = .next t := by
  rcases hr : s.runState with _ | _ | _
  · exact ⟨_, cycle_of_stopped hr⟩
  all_goals
    have hrun : s.runState ≠ .stopped := by simp [hr]
    rcases hq : s.stopReq with _ | _
  · rw [cycle_of_running hr hq]
    exact runInstruction_total s
  · exact ⟨_, cycle_of_stopReq hrun hq⟩
  · exact ⟨_, cycle_of_paused hr hq⟩
  · exact ⟨_, cycle_of_stopReq hrun hq⟩

theorem deliver_total (e : Event) (s : State) : ∃ t, deliver e s = .next t := by
  cases e
  case cycle => exact cycle_total s
  all_goals exact ⟨_, rfl⟩

theorem step_total (s : State) : ∃ t, step s = .next t := by
  rw [step_eq_deliver]
  exact deliver_total _ _

/-! ### The invariant under the shared operations -/

/-- The fields the invariant looks at. -/
def State.invFields (s : State) :
    Config × Nat × List Word × Word × Memory × Bool × RunState × Bool × Option FaultRecord :=
  (s.cfg, s.sp, s.stack, s.pc, s.mem, s.dirty, s.runState, s.runDone, s.fault)

theorem State.Inv.of_invFields {s t : State} (h : s.Inv) (he : t.invFields = s.invFields) : t.Inv := by
  simp only [State.invFields, Prod.mk.injEq] at he
  obtain ⟨hcfg, hsp, hstack, hpc, hmem, hdirty, hrun, hdone, hfault⟩ := he
  constructor <;> simp only [hcfg, hsp, hstack, hpc, hmem, hdirty, hrun, hdone, hfault]
  exacts [h.cfgAllowed, h.spBounded, h.stackSized, h.entriesBounded, h.pcBounded, h.memCanonical, h.notDirty,
    h.doneStopped, h.faultFinal, h.faultAddress]

theorem State.Inv.not_done {s : State} (h : s.Inv) (hrun : s.runState ≠ .stopped) : s.runDone = false :=
  Bool.eq_false_iff.2 fun hdone => hrun (h.doneStopped hdone)

/-- No fault is recorded in an unfinished run. -/
theorem State.Inv.no_fault {s : State} (h : s.Inv) (hdone : s.runDone = false) : s.fault = none :=
  Option.eq_none_iff_forall_ne_some.2 fun f hf => Bool.eq_false_iff.1 hdone (h.faultFinal f hf).1

/-- A host event that moves the run state does so in an unfinished run only. -/
theorem State.Inv.setRunState {s : State} (h : s.Inv) {p : Prop} [Decidable p] (r : RunState)
    (hdone : p → s.runDone = false) : (if p then { s with runState := r } else s).Inv := by
  split
  · next hp => exact { h with doneStopped := fun ht => absurd ht (Bool.eq_false_iff.1 (hdone hp)) }
  · exact h

theorem State.Inv.writeByte {s : State} (h : s.Inv) (a : Nat) (b : Byte) : (s.writeByte a b).Inv :=
  { h with memCanonical := State.wf_writeByte h.memCanonical a b }

theorem State.Inv.endRun {s : State} (h : s.Inv) (hdone : s.runDone = false) : s.endRun.Inv :=
  { h with
    doneStopped := fun _ => rfl
    faultFinal := fun f hf => absurd hf (by simp [h.no_fault hdone]) }

/-- Taking a fault keeps the invariant if an address it reports does not exist. -/
theorem State.Inv.raise {s : State} (h : s.Inv) {c : FaultCause} (w : Word)
    (hc : ∀ a, c = .addressOutOfRange a → 4096 ≤ a.toNat) : (s.raise c w).Inv :=
  { h with
    doneStopped := fun _ => rfl
    faultFinal := fun f hf => by cases hf; exact ⟨rfl, rfl⟩
    faultAddress := fun f a hf hfc => by cases hf; exact hc a hfc }

theorem inv_resetOf {cfg : Config} (hcfg : cfg.wellFormed = true) : (State.resetOf cfg).Inv where
  cfgAllowed := hcfg
  spBounded := Nat.zero_le _
  stackSized := List.length_replicate
  entriesBounded := fun a ha => by rw [List.eq_of_mem_replicate ha]; decide
  pcBounded := show (0x200 : Word).toNat ≤ 0x10FE by decide
  memCanonical := rfl
  notDirty := rfl
  doneStopped := fun _ => rfl
  faultFinal := nofun
  faultAddress := nofun

/-! ### What an instruction does to the fields of the invariant -/

/-- What holds of the fault and of the effect holds after the bounds check (R146). -/
theorem guardRange_induction {P : State → Prop} {s effect : State} {len : Nat}
    (hfault : P (s.raiseAt (.addressOutOfRange (firstInvalid s.index.toNat)))) (heffect : P effect) :
    P (s.guardRange len effect) := by
  rcases guardRange_cases s len effect with ⟨_, e⟩ | ⟨_, e⟩ <;> rw [e]
  · exact hfault
  · exact heffect

/-- Whether it faults or not, an instruction stays within its parts, the fault record and the run state. -/
theorem exec_frame {i : Instr} {s t : State} (h : exec i s = .next t) :
    ChangesOnly (fun p => touches s i p ∨ p = .fault ∨ p = .runState ∨ p = .runDone) s t := by
  rcases exec_cases h with ⟨c, -, rfl⟩ | hu
  · obtain ⟨-, -, -, hframe⟩ := faulted_raise s c s.fetchedWord
    exact hframe.mono fun p => .inr
  · exact hu.mono fun p => .inl

/-- No instruction changes its parameters or an input line, faulting or not (R5, R43). -/
theorem exec_cfg {i : Instr} {s t : State} (h : exec i s = .next t) : t.cfg = s.cfg :=
  exec_frame h .cfg (by cases i <;> simp [touches])

theorem exec_key {i : Instr} {s t : State} (h : exec i s = .next t) : t.key = s.key :=
  exec_frame h .key (by cases i <;> simp [touches])

theorem exec_rnd {i : Instr} {s t : State} (h : exec i s = .next t) : t.rnd = s.rnd :=
  exec_frame h .rnd (by cases i <;> simp [touches])

/-- Only a call writes stack entries (R30). -/
theorem exec_stack {i : Instr} {s t : State} (h : exec i s = .next t) (hcall : ∀ nnn, i ≠ .call nnn) :
    t.stack = s.stack :=
  List.ext_getElem? fun k => exec_frame h (.stackEntry k) (by cases i <;> simp [touches] at hcall ⊢)

/-- An instruction leaves memory as it was or stores bytes (R53). -/
theorem exec_mem {i : Instr} {s t : State} (h : exec i s = .next t) :
    t.mem = s.mem ∨ ∃ a bs, t.mem = (s.storeBytes a bs).mem := by
  cases i
  case ret | call | ldVxK => cases h; split <;> exact .inl rfl
  case drw => cases h; exact .inl (guardRange_induction (P := fun t => t.mem = s.mem) rfl rfl)
  case loadRegs =>
    cases h
    exact .inl (guardRange_induction (P := fun t => t.mem = s.mem) rfl (by rw [State.loadRegs_eq]; rfl))
  case ldB | storeRegs =>
    cases h
    exact guardRange_induction (P := fun t => t.mem = s.mem ∨ ∃ a bs, t.mem = (s.storeBytes a bs).mem) (.inl rfl)
      (.inr ⟨_, _, rfl⟩)
  all_goals cases h; exact .inl rfl

theorem exec_keeps_wf {i : Instr} {s t : State} (hw : Memory.wf s.cfg.fontBase s.mem = true)
    (h : exec i s = .next t) : Memory.wf s.cfg.fontBase t.mem = true := by
  rcases exec_mem h with hm | ⟨a, bs, hm⟩ <;> rw [hm]
  · exact hw
  · exact State.wf_storeBytes hw a bs

/-- An instruction that completes leaves the stack as it was, pops, or pushes the return address (R30). -/
theorem stack_cases_of_touches {i : Instr} {s t : State} (h : exec i s = .next t)
    (hu : ChangesOnly (touches s i) s t) (hdone : t.runDone = false) :
    (t.stack = s.stack ∧ t.sp ≤ s.sp) ∨
      (s.sp < s.cfg.stackCapacity ∧ t.stack = s.stack.set s.sp (s.pc + 2) ∧ t.sp = s.sp + 1) := by
  cases i
  case call =>
    obtain ⟨hfree, rfl⟩ := execCall_of_unfinished h hdone
    exact .inr ⟨hfree, rfl, rfl⟩
  case ret =>
    obtain ⟨-, rfl⟩ := execRet_of_unfinished h hdone
    exact .inl ⟨rfl, Nat.sub_le _ _⟩
  all_goals
    exact .inl ⟨exec_stack h nofun, Nat.le_of_eq (hu .sp (by simp [touches]))⟩

/-- A recorded address is the one the bounds check reports (R172). -/
theorem guardRange_faultAddress {s effect : State} {len : Nat} {f : FaultRecord} {a : BitVec 17}
    (hf : (s.guardRange len effect).fault = some f) (he : effect.fault = none)
    (hc : f.cause = .addressOutOfRange a) : a = firstInvalid s.index.toNat := by
  rcases guardRange_cases s len effect with ⟨_, e⟩ | ⟨_, e⟩ <;> rw [e] at hf
  · cases hf
    cases hc
    rfl
  · rw [he] at hf
    contradiction

theorem State.storeBytes_fault (s : State) (a : Nat) (bs : List Byte) : (s.storeBytes a bs).fault = s.fault := by
  rw [State.storeBytes_eq]

theorem State.loadRegs_fault (s : State) (base count : Nat) : (s.loadRegs base count).fault = s.fault := by
  rw [State.loadRegs_eq]

theorem exec_faultAddress {i : Instr} {s t : State} {f : FaultRecord} {a : BitVec 17} (h : exec i s = .next t)
    (hs : s.fault = none) (hf : t.fault = some f) (hc : f.cause = .addressOutOfRange a) :
    a = firstInvalid s.index.toNat := by
  cases i
  case drw => cases h; exact guardRange_faultAddress hf hs hc
  case ldB | storeRegs => cases h; exact guardRange_faultAddress hf ((State.storeBytes_fault s _ _).trans hs) hc
  case loadRegs => cases h; exact guardRange_faultAddress hf ((State.loadRegs_fault s _ _).trans hs) hc
  all_goals
    rcases exec_cases h with ⟨c, hmay, rfl⟩ | hu
    · cases hf
      cases hc
      cases hmay
    · rw [(runKept_of_touches hu).fault, hs] at hf
      contradiction

/-- From an address that can be fetched from, 2 or 4 further is in reach (R25). -/
theorem toNat_add_le_of_fetched {pc : Word} (hfetch : pc.toNat + 1 < 4096) :
    (pc + 2).toNat ≤ 0x1000 ∧ (pc + 4).toNat ≤ 0x10FE ∧ pc.toNat ≤ 0x10FE := by
  refine ⟨?_, ?_, ?_⟩ <;> bv_omega

/-- The reachable values of `PC` (R25): the targets the rule of R24 names, each within its bound. -/
theorem exec_pc_le {i : Instr} {s t : State} (hinv : s.Inv) (hs : s.runDone = false) (hfetch : s.pc.toNat + 1 < 4096)
    (h : exec i s = .next t) (ht : t.runDone = false) : t.pc.toNat ≤ 0x10FE := by
  have hpc := (programCounterAfterEachInstruction.1 i s t hs hinv.stackSized hinv.spBounded h).2 ht
  obtain ⟨h2, h4, h0⟩ := toNat_add_le_of_fetched hfetch
  cases i
  case jp nnn => exact hpc.trans_le (by omega)
  case call nnn => exact hpc.1.trans_le (by omega)
  case jpV0 nnn => exact hpc.trans_le (by omega)
  case ret => exact (hinv.entriesBounded _ (List.mem_of_getElem? hpc)).trans (by decide)
  case seImm | sneImm | seReg | sneReg | skp | sknp | ldVxK =>
    simp only at hpc
    rw [hpc]
    split <;> omega
  all_goals
    rw [show t.pc = s.pc + 2 from hpc]
    omega

/-! ### The invariant through an instruction, a cycle and an event -/

/-- The snapshot of a running engine only clears `dirty` among the fields of the invariant (R27, R96). -/
theorem emitSnapshot_invFields {s : State} (hrun : s.runState = .running) :
    s.emitSnapshot.invFields = ({ s with dirty := false } : State).invFields := by
  rcases hd : s.dirty with _ | _
  · rw [emitSnapshot_of_clean hd]
    simp only [State.invFields, hd]
  · rw [emitSnapshot_of_dirty hrun hd]
    rfl

/-- What an instruction that completes does to `SP` and the stack keeps their bounds. -/
theorem State.Inv.stack_executed {i : Instr} {s t : State} (hinv : s.Inv) (hfetch : s.pc.toNat + 1 < 4096)
    (h : exec i s = .next t) (hu : ChangesOnly (touches s i) s t) (ht : t.runDone = false) :
    t.sp ≤ s.cfg.stackCapacity ∧ t.stack.length = s.cfg.stackCapacity ∧ ∀ a ∈ t.stack, a.toNat ≤ 0x1000 := by
  rcases stack_cases_of_touches h hu ht with ⟨hstack, hsp⟩ | ⟨hfree, hstack, hsp⟩ <;> rw [hstack]
  · exact ⟨hsp.trans hinv.spBounded, hinv.stackSized, hinv.entriesBounded⟩
  · refine ⟨hsp ▸ hfree, by rw [List.length_set, hinv.stackSized], fun a ha => ?_⟩
    rcases List.mem_or_eq_of_mem_set ha with hold | rfl
    · exact hinv.entriesBounded a hold
    · exact (toNat_add_le_of_fetched hfetch).1

theorem State.Inv.executed {i : Instr} {s t : State} (hinv : s.Inv) (hrun : s.runState = .running)
    (hfetch : s.pc.toNat + 1 < 4096) (h : exec i s = .next t) : t.emitSnapshot.Inv := by
  have hdone : s.runDone = false := hinv.not_done (by simp [hrun])
  have hfault := hinv.no_fault hdone
  rcases exec_cases h with ⟨c, -, rfl⟩ | hu
  · rw [emitSnapshot_raiseAt]
    refine hinv.raise _ fun a hc => ?_
    rw [exec_faultAddress h hfault rfl hc, toNat_firstInvalid]
    exact Nat.le_max_right _ _
  · have kept := runKept_of_touches hu
    have ht : t.runDone = false := kept.runDone.trans hdone
    have htf : t.fault = none := kept.fault.trans hfault
    obtain ⟨hsp, hlen, hentries⟩ := hinv.stack_executed hfetch h hu ht
    have hpc := exec_pc_le hinv hdone hfetch h ht
    have hw : Memory.wf t.cfg.fontBase t.mem = true := by
      rw [kept.cfg]
      exact exec_keeps_wf hinv.memCanonical h
    have hclean : ({ t with dirty := false } : State).Inv :=
      { cfgAllowed := kept.cfg ▸ hinv.cfgAllowed
        spBounded := kept.cfg ▸ hsp
        stackSized := kept.cfg ▸ hlen
        entriesBounded := hentries
        pcBounded := hpc
        memCanonical := hw
        notDirty := rfl
        doneStopped := fun hd => absurd hd (Bool.eq_false_iff.1 ht)
        faultFinal := fun f hf => absurd hf (by simp [htf])
        faultAddress := fun f a hf => absurd hf (by simp [htf]) }
    exact hclean.of_invFields (emitSnapshot_invFields (kept.runState.trans hrun))

theorem State.Inv.cycled {s t : State} (hinv : s.Inv) (h : cycle s = .next t) : t.Inv := by
  rcases cycle_cases h with ⟨-, rfl⟩ | ⟨hrun, -, rfl⟩ | ⟨-, -, hout, rfl⟩ | ⟨-, -, -, -, rfl⟩ |
    ⟨hrun, -, hfetch, i, u, -, hexec, rfl⟩
  · exact hinv
  · exact hinv.endRun (hinv.not_done hrun)
  · refine hinv.raise 0 fun a ha => ?_
    cases ha
    rw [toNat_fetchFaultAddress]
    split <;> omega
  · exact hinv.raise _ nofun
  · exact hinv.executed hrun hfetch hexec

theorem State.fresh_iff (s : State) : s.fresh = true ↔ s.runState = .stopped ∧ s.runDone = false := by
  simp [State.fresh]

theorem State.Inv.delivered {e : Event} {s t : State} (hinv : s.Inv) (h : deliver e s = .next t) : t.Inv := by
  cases e
  case cycle => exact hinv.cycled h
  all_goals cases h
  case reset => exact (inv_resetOf hinv.cfgAllowed).of_invFields rfl
  case load a d =>
    show (s.loadByte a d).Inv
    unfold State.loadByte
    split
    · exact hinv.writeByte _ d
    · exact hinv
  case start => exact hinv.setRunState _ fun hfresh => ((State.fresh_iff s).1 hfresh).2
  case pause => exact hinv.setRunState _ fun hrun => hinv.not_done (by simp [hrun])
  case resume => exact hinv.setRunState _ fun hrun => hinv.not_done (by simp [hrun])
  all_goals exact hinv.of_invFields rfl

/-! ### O55, O57 and O58 -/

/-- Settles O55: every arm, every stage of the cycle and every event answers a next state. -/
theorem stepAlwaysGoesOn : Obligations.StepAlwaysGoesOn := by
  unfold Obligations.StepAlwaysGoesOn
  exact ⟨step_total, exec_total⟩

/-- Settles O57: a step delivers one event to the state without it, and each event keeps the invariant. -/
theorem everyStepKeepsTheInvariant : Obligations.EveryStepKeepsTheInvariant := by
  unfold Obligations.EveryStepKeepsTheInvariant
  intro s t hinv h
  rw [step_eq_deliver] at h
  exact (hinv.of_invFields (t := s.popEvent) rfl).delivered h

/-- Settles O58: the reset state of every allowed configuration, the default one among them. -/
theorem invariantHoldsAtReset : Obligations.InvariantHoldsAtReset := by
  unfold Obligations.InvariantHoldsAtReset
  exact ⟨fun c => inv_resetOf, inv_resetOf (by decide)⟩

end Sys2Proof.Machine

/-!
What an instruction cannot see: the input lines and the stack for most instructions (10_state.md R43, R30), a register
it does not read (R21); and O50, O51 and O59.
-/

namespace Sys2Proof.Machine

/-- A choice that does not see `f`, between two states that `f` commutes with. -/
theorem next_ite_map {p : Prop} [Decidable p] (f : State → State) {a b a' b' : State} (ha : a' = f a) (hb : b' = f b) :
    (Host.Outcome.next (if p then a' else b') : Host.Outcome State Fault Refusal) =
      .next (f (if p then a else b)) := by
  split
  · rw [ha]
  · rw [hb]

/-- A change that does not see single stores does not see a row of them. -/
theorem storeBytes_map {f : State → State} (hf : ∀ s a b, (f s).writeByte a b = f (s.writeByte a b)) (s : State)
    (a : Nat) (bs : List Byte) : (f s).storeBytes a bs = f (s.storeBytes a bs) := by
  induction bs generalizing s a with
  | nil => rfl
  | cons b rest ih => rw [State.storeBytes, hf, ih, State.storeBytes]

/-- FX0A with no key down (R164). -/
theorem exec_ldVxK_of_none {s : State} (x : Reg) (h : s.lowestKey = none) : exec (.ldVxK x) s = .next s := by
  simp only [exec, execLdVxK, h]

/-- FX0A with a key down stores its number (R164). -/
theorem exec_ldVxK_of_some {s : State} (x : Reg) {k : Nat} (h : s.lowestKey = some k) :
    exec (.ldVxK x) s = .next (s.writeResult x (BitVec.ofNat 8 k)) := by
  simp only [exec, execLdVxK, h]
  rfl

/-! ### The stack and the input lines -/

/-- The state with another stack, other key lines and another random byte: what most instructions do not see. -/
def State.withUnseen (s : State) (stack : List Word) (key : BitVec 16) (rnd : Byte) : State :=
  { s with stack := stack, key := key, rnd := rnd }

section Unseen
variable {s t : State} {l : List Word} {k : BitVec 16} {b : Byte}

theorem loadRegs_withUnseen (s : State) (base count : Nat) :
    (s.withUnseen l k b).loadRegs base count = (s.loadRegs base count).withUnseen l k b := by
  induction count with
  | zero => rfl
  | succ n ih =>
    rw [State.loadRegs, ih]
    rfl

/-- An instruction that neither calls nor returns does not see the stack, and sees an input only if it samples it. -/
theorem exec_withUnseen {i : Instr} (h : exec i s = .next t) (hcall : ∀ nnn, i ≠ .call nnn) (hret : i ≠ .ret)
    (hkey : i.samplesKeys → k = s.key) (hrnd : i.samplesRandom → b = s.rnd) :
    exec i (s.withUnseen l k b) = .next (t.withUnseen l k b) := by
  cases i
  case call nnn => exact absurd rfl (hcall nnn)
  case ret => exact absurd rfl hret
  case skp | sknp => cases h; rw [hkey trivial]; rfl
  case rnd => cases h; rw [hrnd trivial]; rfl
  case ldVxK x =>
    rw [hkey trivial]
    rcases hl : s.lowestKey with _ | n
    · rw [exec_ldVxK_of_none x hl] at h
      cases h
      exact exec_ldVxK_of_none x hl
    · rw [exec_ldVxK_of_some x hl] at h
      cases h
      exact exec_ldVxK_of_some x hl
  case drw => cases h; exact next_ite_map (State.withUnseen · l k b) rfl rfl
  case ldB | storeRegs =>
    cases h
    exact next_ite_map (State.withUnseen · l k b) rfl
      (congrArg State.advance (storeBytes_map (f := (State.withUnseen · l k b)) (fun _ _ _ => rfl) s _ _))
  case loadRegs =>
    cases h
    exact next_ite_map (State.withUnseen · l k b) rfl (congrArg State.advance (loadRegs_withUnseen s _ _))
  all_goals cases h; rfl

end Unseen

/-- The input lines alone: calls and returns do not see them either. -/
theorem exec_withInputs {i : Instr} {s t : State} {k : BitVec 16} {b : Byte} (h : exec i s = .next t)
    (hkey : i.samplesKeys → k = s.key) (hrnd : i.samplesRandom → b = s.rnd) :
    exec i { s with key := k, rnd := b } = .next { t with key := k, rnd := b } := by
  cases i
  case call => cases h; exact next_ite_map (fun u => { u with key := k, rnd := b }) rfl rfl
  case ret => cases h; exact next_ite_map (fun u => { u with key := k, rnd := b }) rfl rfl
  all_goals
    have ht : t.withUnseen s.stack k b = { t with key := k, rnd := b } := by
      rw [← exec_stack h nofun]
      rfl
    rw [← ht]
    exact exec_withUnseen h nofun nofun hkey hrnd

/-! ### Stack entries at `SP` and above (R30) -/

/-- The list `l` differs from the stack of `s` only in entries at `SP` and above. -/
structure State.StackAgrees (s : State) (l : List Word) : Prop where
  length : l.length = s.stack.length
  below  : ∀ k, k < s.sp → l[k]? = s.stack[k]?

theorem State.StackAgrees.of_le {s t : State} {l : List Word} (h : s.StackAgrees l) (hstack : t.stack = s.stack)
    (hsp : t.sp ≤ s.sp) : t.StackAgrees l where
  length := hstack ▸ h.length
  below k hk := hstack ▸ h.below k (hk.trans_le hsp)

/-- A push writes the entry at `SP`, so the stacks agree up to it. -/
theorem State.StackAgrees.push {s : State} {l : List Word} (h : s.StackAgrees l) (a : Word) :
    (s.push a).StackAgrees (l.set s.sp a) where
  length := by simp [h.length]
  below k hk := by
    rw [State.push_stack, List.getElem?_set, List.getElem?_set, h.length]
    split
    · rfl
    · exact h.below k (by rw [State.push_sp] at hk; omega)

theorem State.StackAgrees.topOfStack {s : State} {l : List Word} (h : s.StackAgrees l) (hsp : 0 < s.sp) :
    ({ s with stack := l } : State).topOfStack = s.topOfStack := by
  simp only [State.topOfStack, List.getD_eq_getElem?_getD]
  rw [h.below _ (Nat.sub_lt hsp Nat.one_pos)]

/-- An instruction answers the same from two such stacks, and leaves two such stacks. -/
theorem exec_of_stackAgrees {i : Instr} {s t : State} {l : List Word} (hl : s.StackAgrees l) (h : exec i s = .next t) :
    ∃ l', t.StackAgrees l' ∧ exec i { s with stack := l } = .next { t with stack := l' } := by
  cases i
  case ret =>
    rcases Nat.eq_zero_or_pos s.sp with hempty | hpos
    · rw [exec_ret_of_empty hempty] at h
      cases h
      exact ⟨l, hl.of_le rfl le_rfl, exec_ret_of_empty hempty⟩
    · rw [exec_ret_of_nonempty hpos] at h
      cases h
      refine ⟨l, hl.of_le rfl (Nat.sub_le _ _), ?_⟩
      rw [exec_ret_of_nonempty (s := { s with stack := l }) hpos, hl.topOfStack hpos]
      rfl
  case call nnn =>
    by_cases hfree : s.sp < s.cfg.stackCapacity
    · rw [exec_call_of_free nnn hfree] at h
      cases h
      exact ⟨l.set s.sp (s.pc + 2), (hl.push _).of_le rfl le_rfl, exec_call_of_free nnn hfree⟩
    · cases h
      rw [if_neg hfree]
      exact ⟨l, hl.of_le rfl le_rfl, congrArg Host.Outcome.next (if_neg hfree)⟩
  all_goals
    have hsp : t.sp = s.sp := exec_frame h .sp (by simp [touches])
    have ht : t.withUnseen l s.key s.rnd = { t with stack := l } := by
      rw [← exec_key h, ← exec_rnd h]
      rfl
    refine ⟨l, hl.of_le (exec_stack h nofun) hsp.le, ?_⟩
    rw [← ht]
    exact exec_withUnseen h nofun nofun (fun _ => rfl) (fun _ => rfl)

theorem emitSnapshot_withStack (s : State) (l : List Word) :
    ({ s with stack := l } : State).emitSnapshot = { s.emitSnapshot with stack := l } :=
  Eq.symm (apply_ite (fun u : State => { u with stack := l }) _ _ _)

theorem cycle_of_stackAgrees {s t : State} {l : List Word} (hl : s.StackAgrees l) (h : cycle s = .next t) :
    ∃ l', t.StackAgrees l' ∧ cycle { s with stack := l } = .next { t with stack := l' } := by
  rcases cycle_cases h with ⟨hidle, rfl⟩ | ⟨hrun, hstop, rfl⟩ | ⟨hrun, hstop, hout, rfl⟩ |
    ⟨hrun, hstop, hfetch, ⟨e, hd⟩, rfl⟩ | ⟨hrun, hstop, hfetch, i, u, hd, hexec, rfl⟩
  · refine ⟨l, hl, ?_⟩
    rcases hidle with hstopped | ⟨hpaused, hstop⟩
    · exact cycle_of_stopped hstopped
    · exact cycle_of_paused hpaused hstop
  · exact ⟨l, hl.of_le rfl le_rfl, cycle_of_stopReq (s := { s with stack := l }) hrun hstop⟩
  · refine ⟨l, hl.of_le rfl le_rfl, ?_⟩
    rw [cycle_of_running (s := { s with stack := l }) hrun hstop]
    exact runInstruction_of_outside (s := { s with stack := l }) hout
  · refine ⟨l, hl.of_le rfl le_rfl, ?_⟩
    rw [cycle_of_running (s := { s with stack := l }) hrun hstop]
    exact runInstruction_of_error (s := { s with stack := l }) hfetch hd
  · obtain ⟨l', hl', hexec'⟩ := exec_of_stackAgrees hl hexec
    have hframe := changesOnly_emitSnapshot u
    have hstack : u.emitSnapshot.stack = u.stack := List.ext_getElem? fun n => hframe (.stackEntry n) (by simp)
    refine ⟨l', hl'.of_le hstack (hframe .sp (by simp)).le, ?_⟩
    rw [cycle_of_running (s := { s with stack := l }) hrun hstop, ← emitSnapshot_withStack,
      runInstruction_of_ok (s := { s with stack := l }) hfetch hd]
    exact executeAndEmit_next hexec'

theorem deliver_of_stackAgrees {e : Event} {s t : State} {l : List Word} (hl : s.StackAgrees l)
    (h : deliver e s = .next t) :
    ∃ l', t.StackAgrees l' ∧ deliver e { s with stack := l } = .next { t with stack := l' } := by
  by_cases hc : e = .cycle
  · subst hc
    exact cycle_of_stackAgrees hl h
  by_cases hr : e = .reset
  · subst hr
    cases h
    exact ⟨_, ⟨rfl, fun _ _ => rfl⟩, rfl⟩
  · have hframe := changesOnly_deliver hc hr h
    have hstack : t.stack = s.stack := List.ext_getElem? fun n => hframe (.stackEntry n) (by simp [eventTouches])
    have hsp : t.sp = s.sp := hframe .sp (by simp [eventTouches])
    refine ⟨l, hl.of_le hstack hsp.le, ?_⟩
    cases e
    case cycle => exact absurd rfl hc
    case reset => exact absurd rfl hr
    case load | start | pause | resume => cases h; exact next_ite_map (fun u => { u with stack := l }) rfl rfl
    all_goals cases h; rfl

/-! ### A register that is not read (R21) -/

theorem State.setReg_setReg (s : State) (r x : Reg) (b c : Byte) :
    (s.setReg r b).setReg x c = (s.setReg x c).setReg r (if r = x then c else b) := by
  simp only [State.setReg]
  congr 1
  by_cases hrx : r = x
  · subst hrx
    simp
  · rw [if_neg hrx]
    exact Vector.set_comm _ _ (fun h => hrx (Fin.ext h))

section SetReg
variable {s : State} {r : Reg} {b : Byte}

theorem writeResult_setReg (s : State) (r x : Reg) (b c : Byte) :
    ∃ b', (s.setReg r b).writeResult x c = (s.writeResult x c).setReg r b' :=
  ⟨_, congrArg State.advance (s.setReg_setReg r x b c)⟩

theorem writeResultFlag_setReg (s : State) (r x : Reg) (b c f : Byte) :
    ∃ b', (s.setReg r b).writeResultFlag x c f = (s.writeResultFlag x c f).setReg r b' := by
  unfold State.writeResultFlag
  rw [State.setReg_setReg s r x, State.setReg_setReg (s.setReg x c) r VF]
  exact ⟨_, rfl⟩

theorem loadRegs_setReg (s : State) (r : Reg) (b : Byte) (base count : Nat) :
    ∃ b', (s.setReg r b).loadRegs base count = (s.loadRegs base count).setReg r b' := by
  induction count with
  | zero => exact ⟨b, rfl⟩
  | succ n ih =>
    obtain ⟨b', ih⟩ := ih
    rw [State.loadRegs, ih, State.setReg_setReg]
    exact ⟨_, rfl⟩

theorem guardRange_setReg {effect effect' : State} (len : Nat) (h : ∃ b', effect' = effect.setReg r b') :
    ∃ b', (s.setReg r b).guardRange len effect' = (s.guardRange len effect).setReg r b' := by
  obtain ⟨b', rfl⟩ := h
  rcases guardRange_cases s len effect with ⟨hout, e⟩ | ⟨hin, e⟩ <;> rw [e]
  · exact ⟨b, if_pos hout⟩
  · exact ⟨b', if_neg (by simp [hin])⟩

theorem firstRegs_setReg (s : State) (b : Byte) {count : Nat} (h : count ≤ r.val) :
    (s.setReg r b).firstRegs count = s.firstRegs count := by
  simp only [State.firstRegs, State.setReg_v, Vector.toList_set, List.take_set_of_le h]

theorem drawn_setReg {x y : Reg} (hx : x ≠ r) (hy : y ≠ r) (n : Nat) :
    (s.setReg r b).drawn x y n = s.drawn x y n := by
  unfold State.drawn
  rw [State.reg_setReg, State.reg_setReg, if_neg hx, if_neg hy]
  rfl

theorem next_setReg {u u' : State} (h : ∃ b', u' = u.setReg r b') :
    ∃ b', (Host.Outcome.next u' : Host.Outcome State Fault Refusal) = .next (u.setReg r b') :=
  h.imp fun _ => congrArg _

/-- An instruction that does not read a register answers the same for every value of it, but for that register. -/
theorem exec_setReg {i : Instr} {t : State} (hi : ¬ i.reads r) (h : exec i s = .next t) :
    ∃ b', exec i (s.setReg r b) = .next (t.setReg r b') := by
  have hne (q : Reg) (hq : i.reads q) : q ≠ r := fun e => hi (e ▸ hq)
  have hread (q : Reg) (hq : i.reads q) : (s.setReg r b).reg q = s.reg q := by
    rw [State.reg_setReg, if_neg (hne q hq)]
  have hstore := storeBytes_map (f := (State.setReg · r b)) (fun _ _ _ => rfl) s
  cases i
  case cls | jp | ldI => cases h; exact ⟨b, rfl⟩
  case ret | call => cases h; exact ⟨b, next_ite_map (State.setReg · r b) rfl rfl⟩
  case jpV0 => cases h; exact ⟨b, by simp only [exec, execJpV0, hread 0 rfl]; rfl⟩
  case seImm | sneImm | skp | sknp | ldDtVx | ldStVx | addI | ldF =>
    have hx := hread _ rfl
    cases h
    exact ⟨b, by
      simp only [exec, execSeImm, execSneImm, execSkp, execSknp, execLdDtVx, execLdStVx, execAddI, execLdF, hx]
      rfl⟩
  case seReg | sneReg =>
    have hx := hread _ (.inl rfl)
    have hy := hread _ (.inr rfl)
    cases h
    exact ⟨b, by simp only [exec, execSeReg, execSneReg, hx, hy]; rfl⟩
  case ldImm | rnd | ldVxDt => cases h; exact next_setReg (writeResult_setReg s r _ b _)
  case addImm | ldReg =>
    have hx := hread _ rfl
    cases h
    simp only [exec, execAddImm, execLdReg, hx]
    exact next_setReg (writeResult_setReg s r _ b _)
  case orReg | andReg | xorReg =>
    have hx := hread _ (.inl rfl)
    have hy := hread _ (.inr rfl)
    cases h
    simp only [exec, execOrReg, execAndReg, execXorReg, hx, hy]
    exact next_setReg (writeResult_setReg s r _ b _)
  case shr | shl =>
    have hx := hread _ rfl
    cases h
    simp only [exec, execShr, execShl, hx]
    exact next_setReg (writeResultFlag_setReg s r _ b _ _)
  case addReg | subReg | subn =>
    have hx := hread _ (.inl rfl)
    have hy := hread _ (.inr rfl)
    cases h
    simp only [exec, execAddReg, execSubReg, execSubn, hx, hy]
    exact next_setReg (writeResultFlag_setReg s r _ b _ _)
  case ldVxK x =>
    rcases hl : s.lowestKey with _ | k
    · rw [exec_ldVxK_of_none x hl] at h
      cases h
      exact ⟨b, exec_ldVxK_of_none x hl⟩
    · rw [exec_ldVxK_of_some x hl] at h
      cases h
      rw [exec_ldVxK_of_some (s := s.setReg r b) x hl]
      exact next_setReg (writeResult_setReg s r x b _)
  case drw x y n =>
    cases h
    simp only [exec, execDrw, drawn_setReg (hne x (.inl rfl)) (hne y (.inr rfl))]
    exact next_setReg (guardRange_setReg n
      ⟨_, congrArg State.advance (State.setReg_setReg (s.setFrame (s.drawn x y n).1) r VF b _)⟩)
  case ldB x =>
    cases h
    simp only [exec, execLdB, hread x rfl]
    exact next_setReg (guardRange_setReg 3 ⟨b, congrArg State.advance (hstore _ _)⟩)
  case storeRegs x =>
    cases h
    simp only [exec, execStoreRegs, firstRegs_setReg s b (Nat.succ_le_of_lt (Fin.not_le.1 hi))]
    exact next_setReg (guardRange_setReg _ ⟨b, congrArg State.advance (hstore _ _)⟩)
  case loadRegs x =>
    cases h
    exact next_setReg (guardRange_setReg _ ((loadRegs_setReg s r b _ _).imp fun _ => congrArg State.advance))

end SetReg

/-! ### O50, O51 and O59 -/

/-- Settles O50: the two answers differ by the value of that one register. -/
theorem registersAreReadOnlyAsListed : Obligations.RegistersAreReadOnlyAsListed := by
  unfold Obligations.RegistersAreReadOnlyAsListed
  intro i s t t' r b hi h h' p hp
  obtain ⟨b', hexec⟩ := exec_setReg (b := b) hi h
  rw [h'] at hexec
  cases hexec
  exact changesOnly_setReg t r b' p hp

/-- Settles O51: each of the two inputs is changed alone. -/
theorem inputsAreSampledOnlyAsListed : Obligations.InputsAreSampledOnlyAsListed := by
  unfold Obligations.InputsAreSampledOnlyAsListed
  intro i s t h
  refine ⟨fun hi k => ?_, fun hi b => ?_⟩
  · have ht : ({ t with key := k } : State) = { t with key := k, rnd := s.rnd } := by rw [← exec_rnd h]
    rw [ht]
    exact exec_withInputs h (fun hs => absurd hs hi) (fun _ => rfl)
  · have ht : ({ t with rnd := b } : State) = { t with key := s.key, rnd := b } := by rw [← exec_key h]
    rw [ht]
    exact exec_withInputs h (fun _ => rfl) (fun hs => absurd hs hi)

/-- Settles O59: a step delivers one event, and each event keeps the two stacks in agreement below `SP`. -/
theorem staleStackEntriesAreUnobservable : Obligations.StaleStackEntriesAreUnobservable := by
  unfold Obligations.StaleStackEntriesAreUnobservable
  intro s s' t hs hlen hbelow h
  rw [step_eq_deliver] at h
  obtain ⟨l, hl, hdeliver⟩ := deliver_of_stackAgrees (s := s.popEvent) (l := s'.stack) ⟨hlen, hbelow⟩ h
  refine ⟨{ t with stack := l }, ?_, rfl, hl.length, hl.below⟩
  rw [hs, step_eq_deliver]
  exact hdeliver

end Sys2Proof.Machine

/-!
Who writes what (10_state.md R21, R28 to R34, R42): a part that a step changes was written by an instruction that lists
it or by the step's event; and O49 and O52 to O54.
-/

namespace Sys2Proof.Machine

/-- What a change of one part in a step says about the step. The parts left aside are those of the cycle itself: the
list of events, the snapshot, the end of a run. -/
theorem step_changes {s t : State} {p : Part} (h : step s = .next t) (hp : ¬ p.same s t) :
    s.pendingEvent = .reset ∨ (∃ i, s.Ready ∧ s.At i ∧ touches s i p) ∨ eventTouches s.pendingEvent s p ∨
      p = .events ∨ p = .dirty ∨ p = .trace ∨ p = .runDone ∨ p = .fault := by
  by_cases hr : s.pendingEvent = .reset
  · exact .inl hr
  refine .inr ?_
  rcases step_frame h hr with ⟨i, u, hready, hat, -, rfl, hu⟩ | hframe
  · have hstep : ChangesOnly (fun p => touches s i p ∨ p = .events ∨ p = .dirty ∨ p = .trace) s u.emitSnapshot :=
      ((changesOnly_popEvent s).then hu (fun _ hp => .inr (.inl hp)) (fun _ => .inl)).trans
        ((changesOnly_emitSnapshot u).mono fun _ hp => .inr (.inr hp))
    by_contra hno
    exact hp (hstep p fun hmay => hno (hmay.elim (fun ht => .inl ⟨i, hready, hat, ht⟩) fun hc => by tauto))
  · by_contra hno
    exact hp (hframe p fun hmay => hno (by tauto))

/-! ### Which instructions list a part -/

theorem writes_of_touches {s : State} {i : Instr} {r : Reg} (h : touches s i (.reg r)) : i.writes r := by
  cases i
  case loadRegs x =>
    obtain ⟨q, hq, hlt⟩ := h.resolve_left nofun
    cases hq
    exact Nat.le_of_lt_succ hlt
  case ldImm | addImm | ldReg | orReg | andReg | xorReg | rnd | ldVxDt | ldVxK | addReg | subReg | shr | subn | shl
      | drw =>
    simpa [touches, Instr.writes] using h
  all_goals simp [touches] at h

theorem draws_of_touches {s : State} {i : Instr} {x : Fin 64} {y : Fin 32} (h : touches s i (.pixel x y)) :
    i.draws := by
  cases i <;> simp [touches, Instr.draws] at h ⊢

theorem store_of_touches {s : State} {i : Instr} {a : Nat} (h : touches s i (.byte a)) :
    (∃ x, i = .ldB x ∧ s.index.toNat ≤ a ∧ a ≤ s.index.toNat + 2) ∨
      ∃ x : Reg, i = .storeRegs x ∧ s.index.toNat ≤ a ∧ a ≤ s.index.toNat + x.val := by
  cases i <;> simp [touches] at h ⊢
  all_goals omega

theorem index_writer_of_touches {s : State} {i : Instr} (h : touches s i .index) :
    (∃ nnn, i = .ldI nnn) ∨ (∃ x, i = .addI x) ∨ ∃ x, i = .ldF x := by
  cases i <;> simp [touches] at h ⊢

theorem sp_writer_of_touches {s : State} {i : Instr} (h : touches s i .sp) : (∃ nnn, i = .call nnn) ∨ i = .ret := by
  cases i <;> simp [touches] at h ⊢

theorem stack_writer_of_touches {s : State} {i : Instr} {k : Nat} (h : touches s i (.stackEntry k)) :
    k = s.sp ∧ ∃ nnn, i = .call nnn := by
  cases i <;> simp [touches] at h ⊢
  exact h

theorem dt_writer_of_touches {s : State} {i : Instr} (h : touches s i .dt) : ∃ x, i = .ldDtVx x := by
  cases i <;> simp [touches] at h ⊢

theorem st_writer_of_touches {s : State} {i : Instr} (h : touches s i .st) : ∃ x, i = .ldStVx x := by
  cases i <;> simp [touches] at h ⊢

/-! ### Addresses outside memory (R9, R34) -/

theorem byteAt_storeBytes_of_le (s : State) (a : Nat) (bs : List Byte) {c : Nat} (hc : 4096 ≤ c) :
    (s.storeBytes a bs).byteAt c = s.byteAt c := by
  induction bs generalizing s a with
  | nil => rfl
  | cons b rest ih =>
    rw [State.storeBytes, ih]
    by_cases hca : c = a
    · show Memory.read _ (Memory.write _ s.mem a b) c = _
      rw [Memory.write, if_neg (by omega)]
      rfl
    · exact State.byteAt_writeByte_of_ne s b hca

theorem exec_byteAt_of_le {i : Instr} {s t : State} (h : exec i s = .next t) {c : Nat} (hc : 4096 ≤ c) :
    t.byteAt c = s.byteAt c := by
  have hcfg := exec_cfg h
  rcases exec_mem h with hm | ⟨a, bs, hm⟩
  · simp only [State.byteAt, hcfg, hm]
  · rw [← byteAt_storeBytes_of_le s a bs hc]
    simp only [State.byteAt, hcfg, hm]
    rw [State.storeBytes_eq]

theorem step_of_reset {s : State} (hevent : s.pendingEvent = .reset) : step s = .next s.popEvent.resetEvent := by
  rw [step_eq_deliver, hevent]
  rfl

/-- No step changes what is read at an address that does not exist. -/
theorem step_byteAt_of_le {s t : State} (hw : Memory.wf s.cfg.fontBase s.mem = true) (h : step s = .next t) {c : Nat}
    (hc : 4096 ≤ c) : t.byteAt c = s.byteAt c := by
  by_cases hr : s.pendingEvent = .reset
  · rw [step_of_reset hr] at h
    cases h
    exact (Memory.read_outside hw hc).symm
  rcases step_frame h hr with ⟨i, u, -, -, hexec, rfl, -⟩ | hframe
  · have hemit : u.emitSnapshot.byteAt c = u.byteAt c := changesOnly_emitSnapshot u (.byte c) (by simp)
    rw [hemit]
    exact exec_byteAt_of_le (s := s.popEvent) hexec hc
  · refine hframe (.byte c) ?_
    simp only [eventTouches, reduceCtorEq, Part.byte.injEq, false_or, or_false, and_false, not_exists]
    intro a d hload
    omega

/-! ### O49 and O52 to O54 -/

/-- Settles O49: the register is a part the instruction lists. -/
theorem registersAreWrittenOnlyAsListed : Obligations.RegistersAreWrittenOnlyAsListed := by
  unfold Obligations.RegistersAreWrittenOnlyAsListed
  intro s t r h hne
  rcases step_changes (p := .reg r) h hne with hr | ⟨i, hready, hat, hi⟩ | hevent | hcycle
  · exact .inl hr
  · exact .inr ⟨i, hready, hat, writes_of_touches hi⟩
  · simp [eventTouches] at hevent
  · simp at hcycle

/-- Settles O52: the pixel is a part the instruction lists. -/
theorem framebufferChangesOnlyByDrawing : Obligations.FramebufferChangesOnlyByDrawing := by
  unfold Obligations.FramebufferChangesOnlyByDrawing
  intro s t x y h hne
  have hpixel : ¬ (Part.pixel x y).same s t := fun hsame => hne (Bool.eq_iff_iff.1 hsame)
  rcases step_changes h hpixel with hr | ⟨i, hready, hat, hi⟩ | hevent | hcycle
  · exact .inl hr
  · exact .inr ⟨i, hready, hat, draws_of_touches hi⟩
  · simp [eventTouches] at hevent
  · simp at hcycle

/-- Settles O53: the byte is a part the instruction lists, or the one the load event names. -/
theorem memoryChangesOnlyByStores : Obligations.MemoryChangesOnlyByStores := by
  unfold Obligations.MemoryChangesOnlyByStores
  intro s t a hw _ h hne
  refine ⟨Nat.lt_of_not_le fun hle => hne (step_byteAt_of_le hw h hle), ?_⟩
  rcases step_changes (p := .byte a) h hne with hr | ⟨i, hready, hat, hi⟩ | hevent | hcycle
  · exact .inl hr
  · rcases store_of_touches hi with ⟨x, rfl, hbounds⟩ | ⟨x, rfl, hbounds⟩
    · exact .inr (.inr (.inl ⟨x, hready, hat, hbounds⟩))
    · exact .inr (.inr (.inr ⟨x, hready, hat, hbounds⟩))
  · simp only [eventTouches, reduceCtorEq, Part.byte.injEq, false_or, or_false, and_false] at hevent
    obtain ⟨addr, d, hload, rfl, hfresh, hle⟩ := hevent
    exact .inr (.inl ⟨addr, d, hload, rfl, hle, hfresh⟩)
  · simp at hcycle

/-- Settles O54: each of the five is a part its writers list, the timers also one of the tick. -/
theorem specialRegistersChangeOnlyByTheirWriters : Obligations.SpecialRegistersChangeOnlyByTheirWriters := by
  unfold Obligations.SpecialRegistersChangeOnlyByTheirWriters
  intro s t h hr
  have changes {p : Part} (hp : ¬ p.same s t) := (step_changes h hp).resolve_left hr
  refine ⟨fun hne => ?_, fun hne => ?_, fun k hne => ?_, fun hne => ?_, fun hne => ?_⟩
  · rcases changes (p := .index) hne with ⟨i, hready, hat, hi⟩ | hother
    · exact ⟨hready, i, hat, index_writer_of_touches hi⟩
    · simp [eventTouches] at hother
  · rcases changes (p := .sp) hne with ⟨i, hready, hat, hi⟩ | hother
    · exact ⟨hready, i, hat, sp_writer_of_touches hi⟩
    · simp [eventTouches] at hother
  · rcases changes (p := .stackEntry k) hne with ⟨i, hready, hat, hi⟩ | hother
    · obtain ⟨hk, nnn, rfl⟩ := stack_writer_of_touches hi
      exact ⟨hk, hready, nnn, hat⟩
    · simp [eventTouches] at hother
  · rcases changes (p := .dt) hne with ⟨i, hready, hat, hi⟩ | hother
    · obtain ⟨x, rfl⟩ := dt_writer_of_touches hi
      exact .inr ⟨hready, x, hat⟩
    · exact .inl (by simpa [eventTouches] using hother)
  · rcases changes (p := .st) hne with ⟨i, hready, hat, hi⟩ | hother
    · obtain ⟨x, rfl⟩ := st_writer_of_touches hi
      exact .inr ⟨hready, x, hat⟩
    · exact .inl (by simpa [eventTouches] using hother)

end Sys2Proof.Machine

/-!
The cycle as a whole (40_cycle.md R90 to R98, 60_exceptions.md R170 to R182): the instruction and its snapshot, the two
ways a run ends, the finished run; and O28, O34 and O39 to O41.
-/

namespace Sys2Proof.Machine

/-! ### The snapshot (R27, R96) -/

theorem State.At.unique {s : State} {i j : Instr} (hi : s.At i) (hj : s.At j) : i = j :=
  Except.ok.inj (hi.symm.trans hj)

/-- A completed 00E0 or DXYN leaves the framebuffer dirty (R27). -/
theorem exec_dirty_of_draws {i : Instr} {s t : State} (hi : i.draws) (h : exec i s = .next t)
    (ht : t.runDone = false) : t.dirty = true := by
  cases i
  case cls => cases h; rfl
  case drw => cases h; rw [guardRange_of_unfinished ht]; rfl
  all_goals cases hi

theorem exec_dirty_of_not_draws {i : Instr} {s t : State} (hi : ¬ i.draws) (h : exec i s = .next t) :
    t.dirty = s.dirty := by
  cases i
  case cls | drw => exact absurd trivial hi
  all_goals exact exec_frame h .dirty (by simp [touches])

/-- A ready step from a clean state leaves it clean, and emits the framebuffer if and only if it has drawn. -/
theorem snapshot_of_ready {s t : State} {i : Instr} (hclean : s.dirty = false) (hdone : s.runDone = false)
    (hready : s.Ready) (hat : s.At i) (h : step s = .next t) :
    t.dirty = false ∧ (i.draws ∧ t.runDone = false → t.trace = s.trace ++ [t.fb]) ∧
      (¬ (i.draws ∧ t.runDone = false) → t.trace = s.trace) := by
  obtain ⟨u, hexec⟩ := exec_total i s.popEvent
  rw [step_of_at hready hat, executeAndEmit_next hexec] at h
  cases h
  rcases exec_cases hexec with ⟨c, -, rfl⟩ | hu
  · rw [emitSnapshot_raiseAt]
    exact ⟨hclean, fun ⟨_, ht⟩ => absurd ht (by simp [State.raiseAt]), fun _ => rfl⟩
  · obtain ⟨-, hrunning, -⟩ := hready
    have kept := runKept_of_touches hu
    have hrun : u.runState = .running := kept.runState.trans hrunning
    have hud : u.runDone = false := kept.runDone.trans hdone
    by_cases hi : i.draws
    · rw [emitSnapshot_of_dirty hrun (exec_dirty_of_draws hi hexec hud)]
      exact ⟨rfl, fun _ => congrArg (· ++ [u.fb]) kept.trace, fun hno => absurd ⟨hi, hud⟩ hno⟩
    · have hdirty : u.dirty = false := (exec_dirty_of_not_draws hi hexec).trans hclean
      rw [emitSnapshot_of_clean hdirty]
      exact ⟨hdirty, fun hd => absurd hd.1 hi, fun _ => kept.trace⟩

/-- Any other step leaves `dirty` and the trace alone, but that a reset clears `dirty`. -/
theorem snapshot_of_not_ready {s t : State} (hclean : s.dirty = false) (hno : ∀ i, s.Ready → ¬ s.At i)
    (h : step s = .next t) : t.dirty = false ∧ t.trace = s.trace := by
  by_cases hr : s.pendingEvent = .reset
  · rw [step_of_reset hr] at h
    cases h
    exact ⟨rfl, rfl⟩
  · rcases step_frame h hr with ⟨i, -, hready, hat, -⟩ | hframe
    · exact absurd hat (hno i hready)
    · exact ⟨(hframe .dirty (by simp [eventTouches])).trans hclean, hframe .trace (by simp [eventTouches])⟩

/-! ### The end of a run (R98, R170, R178) -/

/-- The stage of the cycle that raises, with the cause and the opcode it records. -/
def State.Raises (s : State) (c : FaultCause) (w : Word) : Prop :=
  (4096 ≤ s.pc.toNat + 1 ∧ w = 0 ∧ ∃ a, c = .addressOutOfRange a) ∨
  (s.Ready ∧ w = s.fetchedWord ∧ c = .invalidOpcode ∧ decodeWord w = .error (.unknown w)) ∨
  (s.Ready ∧ w = s.fetchedWord ∧ ∃ i, s.At i ∧ i.mayRaise c)

theorem deliver_runDone {e : Event} {s t : State} (he : e ≠ .cycle) (h : deliver e s = .next t)
    (ht : t.runDone = true) : s.runDone = true := by
  by_cases hr : e = .reset
  · subst hr
    cases h
    contradiction
  · exact (changesOnly_deliver he hr h .runDone (by simp [eventTouches])).symm.trans ht

/-- A step that ends a run is a cycle that sees the stop request, or one that raises at one of its stages. -/
theorem step_ends_run {s t : State} (h : step s = .next t) (hs : s.runDone = false) (ht : t.runDone = true) :
    s.pendingEvent = .cycle ∧
      ((s.stopReq = true ∧ t = s.popEvent.endRun) ∨
        (s.stopReq = false ∧ ∃ c w, s.Raises c w ∧ t = s.popEvent.raise c w)) := by
  have hevent : s.pendingEvent = .cycle := by
    by_contra he
    rw [step_eq_deliver] at h
    exact Bool.eq_false_iff.1 hs (deliver_runDone (s := s.popEvent) he h ht)
  rw [step_of_cycle hevent] at h
  refine ⟨hevent, ?_⟩
  rcases cycle_cases h with ⟨-, rfl⟩ | ⟨-, hstop, rfl⟩ | ⟨-, hstop, hout, rfl⟩ |
    ⟨hrun, hstop, hfetch, ⟨e, hd⟩, rfl⟩ | ⟨hrun, hstop, hfetch, i, u, hat, hexec, rfl⟩
  · exact absurd ht (Bool.eq_false_iff.1 hs)
  · exact .inl ⟨hstop, rfl⟩
  · exact .inr ⟨hstop, _, _, .inl ⟨hout, rfl, _, rfl⟩, rfl⟩
  · have hready : s.Ready := ⟨hevent, hrun, hstop, hfetch⟩
    cases decodeWord_error hd
    exact .inr ⟨hstop, _, _, .inr (.inl ⟨hready, rfl, rfl, hd⟩), rfl⟩
  · have hready : s.Ready := ⟨hevent, hrun, hstop, hfetch⟩
    have hud : u.runDone = true := (changesOnly_emitSnapshot u .runDone (by simp)).symm.trans ht
    obtain ⟨c, hmay, rfl⟩ := exec_raised_of_runDone (s := s.popEvent) hs hexec hud
    exact .inr ⟨hstop, c, _, .inr (.inr ⟨hready, rfl, i, hat, hmay⟩), emitSnapshot_raiseAt _ _⟩

/-! ### The finished run (R181, R182) -/

theorem changesOnly_requestStop (s : State) : ChangesOnly (· = .stopReq) s s.requestStop := by
  intro p hp
  cases p
  case stopReq => exact absurd rfl hp
  all_goals rfl

theorem changesOnly_key (s : State) (k : BitVec 16) : ChangesOnly (· = .key) s { s with key := k } := by
  intro p hp
  cases p
  case key => exact absurd rfl hp
  all_goals rfl

theorem changesOnly_rnd (s : State) (b : Byte) : ChangesOnly (· = .rnd) s { s with rnd := b } := by
  intro p hp
  cases p
  case rnd => exact absurd rfl hp
  all_goals rfl

/-- A host event that is not enabled is ignored (R45). -/
theorem changesOnly_ite_of_not {may : Part → Prop} {p : Prop} [Decidable p] {s t : State} (h : ¬ p) :
    ChangesOnly may s (if p then t else s) := by
  rw [if_neg h]
  exact ChangesOnly.refl may s

/-- What a finished run leaves to the host: the timers, the stop latch and the input lines. -/
theorem deliver_of_finished {e : Event} {s t : State} (hstopped : s.runState = .stopped) (hdone : s.runDone = true)
    (hr : e ≠ .reset) (h : deliver e s = .next t) :
    ChangesOnly (fun p => (e = .tick ∧ (p = .dt ∨ p = .st)) ∨ p = .stopReq ∨ p = .key ∨ p = .rnd) s t := by
  have hfresh : ¬ s.fresh = true := by simp [State.fresh, hdone]
  cases e
  case reset => exact absurd rfl hr
  case cycle =>
    rw [deliver, cycle_of_stopped hstopped] at h
    cases h
    exact ChangesOnly.refl _ _
  case tick => cases h; exact (changesOnly_tick s).mono fun p hp => .inl ⟨rfl, hp⟩
  case load => cases h; exact changesOnly_ite_of_not fun hload => hfresh hload.1
  case start => cases h; exact changesOnly_ite_of_not hfresh
  case pause => cases h; exact changesOnly_ite_of_not (by simp [hstopped])
  case resume => cases h; exact changesOnly_ite_of_not (by simp [hstopped])
  case stop => cases h; exact (changesOnly_requestStop s).mono (by simp)
  case keyChange => cases h; exact (changesOnly_key s _).mono (by simp)
  case rndChange => cases h; exact (changesOnly_rnd s _).mono (by simp)

/-! ### O28, O34 and O39 to O41 -/

/-- Settles O28: a step that runs an instruction emits if it draws; no other step emits. -/
theorem snapshotsFollowDrawing : Obligations.SnapshotsFollowDrawing := by
  unfold Obligations.SnapshotsFollowDrawing
  intro s t hclean hdone h
  by_cases hruns : s.Ready ∧ ∃ i, s.At i
  · obtain ⟨hready, i, hat⟩ := hruns
    obtain ⟨hdirty, hdraw, hother⟩ := snapshot_of_ready hclean hdone hready hat h
    exact ⟨hdirty, fun ⟨_, ⟨j, hatj, hj⟩, ht⟩ => hdraw ⟨hat.unique hatj ▸ hj, ht⟩,
      fun hno => hother fun ⟨hi, ht⟩ => hno ⟨hready, ⟨i, hat, hi⟩, ht⟩⟩
  · have hno (i : Instr) (hready : s.Ready) (hat : s.At i) : False := hruns ⟨hready, i, hat⟩
    obtain ⟨hdirty, htrace⟩ := snapshot_of_not_ready hclean hno h
    exact ⟨hdirty, fun ⟨hready, ⟨i, hat, _⟩, _⟩ => absurd hat (hno i hready), fun _ => htrace⟩

/-- Settles O34: a ready step is the instruction and its snapshot. -/
theorem stepRunsTheDecodedInstruction : Obligations.StepRunsTheDecodedInstruction := by
  unfold Obligations.StepRunsTheDecodedInstruction
  intro s i hready hat
  obtain ⟨t, hexec⟩ := exec_total i s.popEvent
  exact ⟨t, hexec, (step_of_at hready hat).trans (executeAndEmit_next hexec)⟩

/-- Settles O39: with no stop requested the run ends by a raise, at the first stage that has a cause. -/
theorem faultsArePreciseAndOrdered : Obligations.FaultsArePreciseAndOrdered := by
  unfold Obligations.FaultsArePreciseAndOrdered
  intro s t _ _ hstop hs h ht
  rcases step_ends_run h hs ht with ⟨-, ⟨hreq, -⟩ | ⟨-, c, w, hraises, rfl⟩⟩
  · rw [hstop] at hreq
    contradiction
  · exact ⟨c, w, faulted_raise _ c w, hraises⟩

/-- Settles O40: the two ways a run ends, each with its frame. -/
theorem runsEndByStopOrFault : Obligations.RunsEndByStopOrFault := by
  unfold Obligations.RunsEndByStopOrFault
  intro s t h hs ht
  rcases step_ends_run h hs ht with ⟨hevent, ⟨hreq, rfl⟩ | ⟨hstop, c, w, -, rfl⟩⟩
  · exact ⟨rfl, hevent, .inl ⟨hreq, (changesOnly_popEvent s).then (changesOnly_endRun _) (by simp)
      (by simp +contextual)⟩⟩
  · exact ⟨rfl, hevent, .inr ⟨hstop, c, w, faulted_raise _ c w⟩⟩

/-- Settles O41: the frame of an event in a finished run, and the event taken off the list. -/
theorem finishedRunNeedsReset : Obligations.FinishedRunNeedsReset := by
  unfold Obligations.FinishedRunNeedsReset
  intro s t hstopped hdone hr h
  rw [step_eq_deliver] at h
  have hframe := deliver_of_finished (s := s.popEvent) hstopped hdone hr h
  refine ⟨(changesOnly_popEvent s).then hframe (by simp) (fun p hp => by tauto), fun htick => ?_⟩
  exact ⟨hframe .dt (by simp [htick]), hframe .st (by simp [htick])⟩

end Sys2Proof.Machine

/-!
The host events (10_state.md R44, R45), the reset values (R46), loading and booting (70_reset_and_hazards.md R203 to
R205), a run of ticks; and O32 and O42 to O47.
-/

namespace Sys2Proof.Machine

/-! ### One host event (R45) -/

theorem changesOnly_runState (s : State) (r : RunState) : ChangesOnly (· = .runState) s { s with runState := r } := by
  intro p hp
  cases p
  case runState => exact absurd rfl hp
  all_goals rfl

/-- The frame of a step whose event changes one part. -/
theorem changesOnly_popEvent_then {s t : State} {part : Part} (h : ChangesOnly (· = part) s.popEvent t) :
    ChangesOnly (fun p => p = part ∨ p = .events) s t :=
  (changesOnly_popEvent s).then h (fun _ => .inr) (fun _ => .inl)

/-- A step whose event moves the run state, where it is enabled. -/
theorem changesOnly_popEvent_runState {s t : State} {p : Prop} [Decidable p] {r : RunState}
    (ht : t = if p then { s.popEvent with runState := r } else s.popEvent) :
    (p → t.runState = r ∧ ChangesOnly (fun p => p = .runState ∨ p = .events) s t) ∧
      (¬ p → ChangesOnly (· = .events) s t) := by
  subst ht
  refine ⟨fun hp => ?_, fun hp => ?_⟩
  · rw [if_pos hp]
    exact ⟨rfl, changesOnly_popEvent_then (changesOnly_runState _ r)⟩
  · rw [if_neg hp]
    exact changesOnly_popEvent s

theorem load_enabled_iff (s : State) (addr : BitVec 12) :
    (s.fresh = true ∧ 0x200 ≤ addr.toNat) ↔ s.runState = .stopped ∧ s.runDone = false ∧ 0x200 ≤ addr.toNat := by
  rw [State.fresh_iff, and_assoc]

/-- Settles O42: the step delivers the event to the state without it; each event is one write where it is enabled. -/
theorem hostEventsDoOnlyTheirPart : Obligations.HostEventsDoOnlyTheirPart := by
  unfold Obligations.HostEventsDoOnlyTheirPart
  intro s hw
  obtain ⟨t, ht⟩ := step_total s
  have hdeliver {e : Event} (he : s.pendingEvent = e) : deliver e s.popEvent = .next t := by
    rw [← he, ← step_eq_deliver, ht]
  refine ⟨t, ht, fun addr data he => ?_, fun he => ?_, fun he => ?_, fun he => ?_, fun he => ?_, fun k he => ?_,
    fun b he => ?_⟩ <;> cases hdeliver he
  · rw [← load_enabled_iff]
    refine ⟨fun hp => ?_, fun hp => ?_⟩
    · rw [show s.popEvent.loadByte addr data = s.popEvent.writeByte addr.toNat data from if_pos hp]
      refine ⟨?_, changesOnly_popEvent_then (changesOnly_writeByte _ _ _)⟩
      rw [State.byteAt_writeByte (s := s.popEvent) hw, if_pos ⟨rfl, addr.isLt⟩]
    · rw [show s.popEvent.loadByte addr data = s.popEvent from if_neg hp]
      exact changesOnly_popEvent s
  · rw [← State.fresh_iff]
    exact changesOnly_popEvent_runState rfl
  · exact ⟨rfl, changesOnly_popEvent_then (changesOnly_requestStop _)⟩
  · exact changesOnly_popEvent_runState rfl
  · exact changesOnly_popEvent_runState rfl
  · exact ⟨rfl, changesOnly_popEvent_then (changesOnly_key _ k)⟩
  · exact ⟨rfl, changesOnly_popEvent_then (changesOnly_rnd _ b)⟩

/-! ### The reset values (R46) -/

theorem fontBytes_eq_glyphRows {d r : Nat} (hd : d < 16) (hr : r < 5) :
    (glyphRows[d]?.bind (·[r]?)) = some (fontBytes.getD (5 * d + r) 0) := by
  interval_cases d <;> interval_cases r <;> rfl

theorem resetByte_font (base : Nat) {k : Nat} (hk : k < 80) : resetByte base (base + k) = fontBytes.getD k 0 := by
  rw [resetByte, if_pos (by omega), Nat.add_sub_cancel_left]

theorem resetByte_outside {base a : Nat} (h : a < base ∨ base + 80 ≤ a) : resetByte base a = 0 :=
  if_neg (by omega)

theorem hasResetValues_resetOf (cfg : Config) : HasResetValues (State.resetOf cfg) where
  regs r := by simp [State.reg, State.resetOf]
  pc := rfl
  index := rfl
  sp := rfl
  stack := rfl
  dt := rfl
  st := rfl
  font d r hd hr := by
    rw [fontBytes_eq_glyphRows hd hr, Nat.add_assoc]
    exact congrArg some (resetByte_font cfg.fontBase (by omega)).symm
  bytes a ha := resetByte_outside ha
  fb := not_lit_of_blank rfl
  dirty := rfl
  runState := rfl
  stopReq := rfl
  runDone := rfl
  fault := rfl

/-- A reset event gives the reset values: the fields it keeps are none of them. -/
theorem hasResetValues_resetEvent (s : State) : HasResetValues s.resetEvent :=
  have h := hasResetValues_resetOf s.cfg
  ⟨h.regs, h.pc, h.index, h.sp, h.stack, h.dt, h.st, h.font, h.bytes, h.fb, h.dirty, h.runState, h.stopReq, h.runDone,
    h.fault⟩

/-- Settles O43: the step is the reset of the state without its event. -/
theorem resetGivesTheResetValues : Obligations.ResetGivesTheResetValues := by
  unfold Obligations.ResetGivesTheResetValues
  refine ⟨fun s hevent _ => ?_, hasResetValues_resetOf _⟩
  exact ⟨_, step_of_reset hevent, hasResetValues_resetEvent _, rfl, rfl, rfl, rfl, rfl⟩

/-! ### Loading and booting (R203 to R205) -/

theorem byteAt_storeBytes_rom {s : State} (hw : Memory.wf s.cfg.fontBase s.mem = true) {rom : List Byte}
    (hlen : rom.length ≤ 3584) {k : Nat} {b : Byte} (hk : rom[k]? = some b) :
    (s.storeBytes 0x200 rom).byteAt (0x200 + k) = b := by
  obtain ⟨hlt, rfl⟩ := List.getElem?_eq_some_iff.1 hk
  exact State.byteAt_storeBytes_inside hw 0x200 rom (by omega) k hlt

theorem changesOnly_storeBytes_rom (s : State) (rom : List Byte) :
    ChangesOnly (fun p => ∃ k, k < rom.length ∧ p = .byte (0x200 + k)) s (s.storeBytes 0x200 rom) :=
  (changesOnly_storeBytes s 0x200 rom).mono fun p ⟨c, hp, hle, hlt⟩ =>
    ⟨c - 0x200, by omega, by rw [hp, Nat.add_sub_cancel' hle]⟩

/-- Settles O45: `loadRom` stores the bytes from 0x200 up, or refuses. -/
theorem oversizedRomIsRefusedWhole : Obligations.OversizedRomIsRefusedWhole := by
  unfold Obligations.OversizedRomIsRefusedWhole
  intro rom s
  refine ⟨fun hlen => if_neg (by simpa [romWellFormed] using hlen), fun hlen hfresh hw => ?_⟩
  refine ⟨s.storeBytes 0x200 rom, ?_, fun k b => byteAt_storeBytes_rom hw hlen, changesOnly_storeBytes_rom s rom⟩
  rw [loadRom, romWellFormed, if_pos (decide_eq_true hlen), if_pos hfresh]

/-- The state with other events to come. -/
def State.awaiting (s : State) (es : List Event) : State := { s with events := es }

theorem changesOnly_awaiting (s : State) (es : List Event) : ChangesOnly (· = .events) s (s.awaiting es) := by
  intro p hp
  cases p
  case events => exact absurd rfl hp
  all_goals rfl

theorem step_awaiting_cons (s : State) (e : Event) (es : List Event) :
    step (s.awaiting (e :: es)) = deliver e (s.awaiting es) := step_of_events_cons rfl

/-- The load strobes of a fresh state store their bytes one after the other (R205). -/
theorem runSteps_loadEvents {bs : List Byte} {a : Nat} {s : State} (later : List Event) (n : Nat)
    (hfresh : s.fresh = true) (hle : 0x200 ≤ a) (hlt : a + bs.length ≤ 4096) :
    runSteps (bs.length + n) (s.awaiting (loadEvents a bs ++ later)) =
      runSteps n ((s.storeBytes a bs).awaiting later) := by
  induction bs generalizing a s with
  | nil => rw [List.length_nil, Nat.zero_add]; rfl
  | cons b rest ih =>
    rw [List.length_cons] at hlt
    have haddr : (BitVec.ofNat 12 a).toNat = a := Nat.mod_eq_of_lt (by omega)
    have hload : (s.awaiting (loadEvents (a + 1) rest ++ later)).loadByte (BitVec.ofNat 12 a) b =
        (s.writeByte a b).awaiting (loadEvents (a + 1) rest ++ later) := by
      rw [State.loadByte, haddr, if_pos ⟨hfresh, hle⟩]
      rfl
    calc runSteps ((b :: rest).length + n) (s.awaiting (loadEvents a (b :: rest) ++ later))
      _ = runSteps (rest.length + n + 1) (s.awaiting (loadEvents a (b :: rest) ++ later)) := by
        rw [List.length_cons, Nat.add_right_comm]
      _ = runSteps (rest.length + n) ((s.writeByte a b).awaiting (loadEvents (a + 1) rest ++ later)) :=
        runSteps_succ_of_step _ ((step_awaiting_cons s _ _).trans (congrArg Host.Outcome.next hload))
      _ = runSteps n ((s.storeBytes a (b :: rest)).awaiting later) :=
        ih (s := s.writeByte a b) hfresh (by omega) (by omega)

/-- Settles O44: the reset, then the load strobes as one store, then the start. -/
theorem bootReachesTheLaunchState : Obligations.BootReachesTheLaunchState := by
  unfold Obligations.BootReachesTheLaunchState
  intro s rom _ hlen hevents
  have hreset : step s = .next s.popEvent.resetEvent := step_of_reset (by rw [State.pendingEvent, hevents]; rfl)
  have hself : s.popEvent.resetEvent = s.popEvent.resetEvent.awaiting (loadEvents 0x200 rom ++ [.start]) := by
    have htail : s.popEvent.resetEvent.events = loadEvents 0x200 rom ++ [.start] := congrArg List.tail hevents
    rw [← htail]
    rfl
  have hfresh : s.popEvent.resetEvent.fresh = true := rfl
  have hkept : (s.popEvent.resetEvent.storeBytes 0x200 rom).fresh = true := by rw [State.storeBytes_eq]; rfl
  refine ⟨s.popEvent.resetEvent, { (s.popEvent.resetEvent.storeBytes 0x200 rom).awaiting [] with runState := .running },
    ?_, hasResetValues_resetEvent _, ?_, fun k b => byteAt_storeBytes_rom rfl hlen, rfl, rfl, ?_⟩
  · exact runSteps_succ_of_step 0 hreset
  · calc runSteps (rom.length + 2) s
      _ = runSteps (rom.length + 1) s.popEvent.resetEvent := runSteps_succ_of_step _ hreset
      _ = runSteps (rom.length + 1) (s.popEvent.resetEvent.awaiting (loadEvents 0x200 rom ++ [.start])) :=
        congrArg _ hself
      _ = runSteps 1 ((s.popEvent.resetEvent.storeBytes 0x200 rom).awaiting [.start]) :=
        runSteps_loadEvents _ 1 hfresh le_rfl (by omega)
      _ = runSteps 0 ((s.popEvent.resetEvent.storeBytes 0x200 rom).awaiting []).start :=
        runSteps_succ_of_step 0 (step_awaiting_cons _ _ _)
      _ = some { (s.popEvent.resetEvent.storeBytes 0x200 rom).awaiting [] with runState := .running } :=
        congrArg some (if_pos hkept)
  · refine (((changesOnly_storeBytes_rom s.popEvent.resetEvent rom).mono ?_).trans
      ((changesOnly_awaiting _ []).mono ?_)).trans ((changesOnly_runState _ .running).mono ?_)
    · exact fun p hp => .inr (.inr hp)
    · exact fun p hp => .inr (.inl hp)
    · exact fun p hp => .inl hp

/-! ### A run of ticks (R185) -/

/-- Settles O32: each step takes one tick off the list and counts both timers down. -/
theorem ticksClampAtZero : Obligations.TicksClampAtZero := by
  unfold Obligations.TicksClampAtZero
  intro n
  induction n with
  | zero => exact fun s _ => ⟨s, rfl, rfl, rfl, ChangesOnly.refl _ s⟩
  | succ n ih =>
    intro s hevents
    have hpending : s.pendingEvent = .tick := by rw [State.pendingEvent, hevents]; rfl
    obtain ⟨u, hstep, hdt, hst, hframe⟩ := tickCountsBothTimersDown s hpending
    have hlater : u.events = List.replicate n .tick := by
      rw [step_of_tick hpending] at hstep
      cases hstep
      exact congrArg List.tail hevents
    obtain ⟨t, hrun, hdt', hst', hframe'⟩ := ih u hlater
    refine ⟨t, (runSteps_succ_of_step n hstep).trans hrun, ?_, ?_, hframe.trans hframe'⟩
    · rw [hdt', hdt]
      omega
    · rw [hst', hst]
      omega

/-! ### The strobes of one clock (R44) -/

theorem filter_strobe (p : Event → Bool) (high : Bool) (e : Event) :
    (strobe high e).filter p = if p e then strobe high e else [] := by
  cases high <;> simp [strobe, List.filter_cons]

theorem Clock.loadStrobe_eq (c : Clock) : c.loadStrobe = c.load.toList.map fun l => Event.load l.1 l.2 := by
  unfold Clock.loadStrobe
  split <;> next h => rw [h]; rfl

/-- The load stands before the start or after it, whatever the free choice is (log 12). -/
theorem Clock.startAndLoad_cases (c : Clock) :
    c.startAndLoad = c.loadStrobe ++ strobe c.start .start ∨
      c.startAndLoad = strobe c.start .start ++ c.loadStrobe := by
  unfold Clock.startAndLoad
  split
  · next h => rw [h]; exact .inl rfl
  · split
    · exact .inl rfl
    · exact .inr rfl

/-- A selection that the load fails sees the start alone; one that the start fails sees the load alone. -/
theorem Clock.filter_startAndLoad (c : Clock) (p : Event → Bool) :
    (p .start = true → (∀ a d, p (.load a d) = false) → c.startAndLoad.filter p = strobe c.start .start) ∧
      (p .start = false → (∀ a d, p (.load a d) = true) → c.startAndLoad.filter p = c.loadStrobe) := by
  rcases c.startAndLoad_cases with h | h <;> rw [h, Clock.loadStrobe_eq, List.filter_append, filter_strobe]
  all_goals
    refine ⟨fun hstart hload => ?_, fun hstart hload => ?_⟩ <;> simp [hstart, hload, List.filter_map, Function.comp_def]

/-- Settles O46: the two selections, strobe by strobe. -/
theorem hostStrobesApplyInOrder : Obligations.HostStrobesApplyInOrder := by
  unfold Obligations.HostStrobesApplyInOrder
  intro c
  refine ⟨fun hrst => by simp [Clock.events, hrst], fun hrst => ⟨?_, ?_⟩⟩
  · have hstart := (c.filter_startAndLoad fun e => e ∈ [Event.stop, .pause, .resume, .start, .tick, .cycle]).1
      (by simp) (by simp)
    simp only [Clock.events, hrst, Bool.false_eq_true, if_false, List.filter_append, filter_strobe, hstart]
    simp [strobe]
  · have hload := (c.filter_startAndLoad fun e => e ∉ [Event.stop, .pause, .resume, .start, .tick, .cycle]).2
      (by simp) (by simp)
    simp only [Clock.events, hrst, Bool.false_eq_true, if_false, List.filter_append, filter_strobe, hload,
      Clock.loadStrobe_eq]
    simp

/-! ### The output ports (R36, R39, R42, R44) -/

/-- Rows of one length laid end to end: bit `x` of row `y`. -/
theorem getElem?_flatMap_of_length {α β : Type} {n : Nat} {g : α → List β} (hg : ∀ a, (g a).length = n) (l : List α)
    (y : Nat) {x : Nat} (hx : x < n) : (l.flatMap g)[n * y + x]? = l[y]?.bind fun a => (g a)[x]? := by
  induction l generalizing y with
  | nil => simp
  | cons a l ih =>
    rw [List.flatMap_cons]
    cases y with
    | zero => rw [Nat.mul_zero, Nat.zero_add, List.getElem?_append_left (by rwa [hg])]; rfl
    | succ y =>
      rw [List.getElem?_append_right (by rw [hg, Nat.mul_succ]; omega), hg, List.getElem?_cons_succ, ← ih]
      congr 1
      rw [Nat.mul_succ]
      omega

/-- Settles O47: each port is read off the field it shows; the frame is its rows laid end to end. -/
theorem outputsShowTheState : Obligations.OutputsShowTheState := by
  unfold Obligations.OutputsShowTheState
  refine ⟨fun s => ⟨?_, decide_eq_true_iff, rfl, rfl, fun hf => ?_, fun f hf => ?_⟩, fun f x y => ?_⟩
  · show s.runState.code.toNat = _
    cases s.runState <;> rfl
  · simp only [State.outputs, hf]
  · simp only [State.outputs, hf]
    refine ⟨trivial, trivial, ?_⟩
    cases f.cause <;> exact ⟨rfl, rfl⟩
  · rw [frameBits, getElem?_flatMap_of_length (by simp) _ _ x.isLt]
    simp [pixelAt, Nat.mod_eq_of_lt x.isLt, Nat.mod_eq_of_lt y.isLt, BitVec.getLsbD_eq_getElem]

end Sys2Proof.Machine

/-!
A call and its return (41_control_flow.md), the bounds check as a least address (20_memory.md R54), stores that the next
fetch sees (R63), FX0A (45_timers_keys.md R164), states by their parts; and O12, O23, O24, O30 and O56.
-/

namespace Sys2Proof.Machine

/-! ### Steps with no event waiting -/

theorem popEvent_of_no_events {s : State} (h : s.events = []) : s.popEvent = s := by
  have htail : s.events.tail = s.events := by rw [h]; rfl
  rw [State.popEvent, htail]

/-- With no event waiting, a clean ready state goes to where the instruction goes, if that is clean. -/
theorem step_of_clean {s t : State} {i : Instr} (hready : s.Ready) (hat : s.At i) (hevents : s.events = [])
    (hexec : exec i s = .next t) (ht : t.dirty = false) : step s = .next t := by
  rw [step_of_at hready hat, popEvent_of_no_events hevents, executeAndEmit_next hexec, emitSnapshot_of_clean ht]

/-! ### 2NNN and the 00EE it meets (R100, R102) -/

/-- The state after 2NNN with a free stack entry. -/
def State.called (s : State) (nnn : BitVec 12) : State := (s.push (s.pc + 2)).setPc (addressOf nnn)

theorem at_ret_of_bytes {s : State} (hhi : s.byteAt s.pc.toNat = 0x00) (hlo : s.byteAt (s.pc.toNat + 1) = 0xEE) :
    s.At .ret := by
  rw [State.At, State.fetchedWord, hhi, hlo]
  rfl

theorem topOfStack_called {s : State} (nnn : BitVec 12) (hfree : s.sp < s.stack.length) :
    (s.called nnn).topOfStack = s.pc + 2 := by
  have htop : (s.push (s.pc + 2)).stack[s.sp]? = some (s.pc + 2) := push_stack_get? _ hfree
  show (s.push (s.pc + 2)).stack.getD (s.sp + 1 - 1) 0 = s.pc + 2
  rw [Nat.add_sub_cancel, List.getD_eq_getElem?_getD, htop]
  rfl

/-- A call and a return leave `SP` where it was. -/
theorem changesOnly_called_pop (s : State) (nnn : BitVec 12) (a : Word) :
    ChangesOnly (fun p => p = .pc ∨ p = .stackEntry s.sp) s ((s.called nnn).pop.setPc a) := by
  have hframe : ChangesOnly (fun p => p = .sp ∨ p = .pc ∨ p = .stackEntry s.sp) s ((s.called nnn).pop.setPc a) :=
    ((changesOnly_push_setPc s _ _).mono fun p hp => by tauto).trans
      ((changesOnly_pop_setPc (s.called nnn) a).mono fun p hp => by tauto)
  intro p hp
  by_cases hsp : p = .sp
  · subst hsp
    exact Nat.add_sub_cancel s.sp 1
  · exact hframe p (by tauto)

/-- Settles O12: the call pushes `PC + 2`, and the return it meets pops it. -/
theorem callThenReturnComesBack : Obligations.CallThenReturnComesBack := by
  unfold Obligations.CallThenReturnComesBack
  intro s nnn hinv hready hevents hat hfree hnnn hhi hlo
  have ⟨_, hrun, hstop, _⟩ := hready
  have hpc : (s.called nnn).pc.toNat = nnn.toNat := toNat_addressOf nnn
  have hcall : step s = .next (s.called nnn) :=
    step_of_clean hready hat hevents (exec_call_of_free nnn hfree) hinv.notDirty
  have hready' : (s.called nnn).Ready :=
    ⟨by rw [State.pendingEvent, show (s.called nnn).events = [] from hevents]; rfl, hrun, hstop, hpc ▸ hnnn⟩
  have hat' : (s.called nnn).At .ret := at_ret_of_bytes (hpc ▸ hhi) (hpc ▸ hlo)
  have hret : step (s.called nnn) = .next ((s.called nnn).pop.setPc (s.called nnn).topOfStack) :=
    step_of_clean hready' hat' hevents (exec_ret_of_nonempty (Nat.succ_pos s.sp)) hinv.notDirty
  refine ⟨_, (runSteps_succ_of_step 1 hcall).trans (runSteps_succ_of_step 0 hret), ?_, Nat.add_sub_cancel s.sp 1,
    changesOnly_called_pop s nnn _⟩
  exact topOfStack_called nnn (hinv.stackSized ▸ hfree)

/-! ### The reported address (R54, R146) -/

/-- Settles O23: the addresses from `I` that do not exist start at the larger of `I` and 4096. -/
theorem reportedAddressIsTheSmallestInvalid : Obligations.ReportedAddressIsTheSmallestInvalid := by
  unfold Obligations.ReportedAddressIsTheSmallestInvalid
  intro base len
  rw [outOfRange_iff, toNat_firstInvalid]
  refine ⟨⟨fun ⟨hpos, hle⟩ => ⟨base.toNat + len - 1, by omega, by omega, hle⟩, fun ⟨a, hlo, hhi, hle⟩ => by omega⟩, ?_⟩
  rintro ⟨hpos, hle⟩
  refine ⟨?_, fun a ⟨hlo, _, hinvalid⟩ => max_le hlo hinvalid⟩
  show base.toNat ≤ max base.toNat 4096 ∧ max base.toNat 4096 < base.toNat + len ∧ 4096 ≤ max base.toNat 4096
  omega

/-! ### A store into the next instruction (R63) -/

theorem emitSnapshot_fetchedWord (s : State) : s.emitSnapshot.fetchedWord = s.fetchedWord := by
  have hframe := changesOnly_emitSnapshot s
  have hpc : s.emitSnapshot.pc = s.pc := hframe .pc (by simp)
  have hbyte (a : Nat) : s.emitSnapshot.byteAt a = s.byteAt a := hframe (.byte a) (by simp)
  rw [State.fetchedWord, hpc, hbyte, hbyte, State.fetchedWord]

/-- Settles O24: what FX55 stores is O21; two of its bytes are those the next fetch reads. -/
theorem storesAreFetchedNext : Obligations.StoresAreFetchedNext := by
  unfold Obligations.StoresAreFetchedNext
  intro s x hi lo hw hready hat hin hhi hlo hhiAt hloAt
  have ⟨_, _, _, hfetch⟩ := hready
  obtain ⟨-, t, hexec, -, hstores⟩ := registersAreStored x s.popEvent hw
  obtain ⟨hregs, hpc, -⟩ := hstores hin
  have hpcNat : t.pc.toNat = s.pc.toNat + 2 := by
    rw [hpc, State.popEvent_pc]
    bv_omega
  refine ⟨t.emitSnapshot, (step_of_at hready hat).trans (executeAndEmit_next hexec), ?_, ?_⟩
  · exact (changesOnly_emitSnapshot t .pc (by simp)).trans hpc
  · rw [emitSnapshot_fetchedWord, State.fetchedWord, hpcNat, ← hhiAt, show s.index.toNat + hi.val + 1 =
      s.index.toNat + lo.val by omega]
    exact congrArg₂ wordOfBytes (hregs hi hhi) (hregs lo hlo)

/-! ### FX0A (R164) -/

theorem lowestKey_eq_some {s : State} {k : Nat} (hk : k < 16) (hdown : s.key.getLsbD k = true)
    (hlower : ∀ j, j < k → s.key.getLsbD j = false) : s.lowestKey = some k := by
  rw [State.lowestKey, List.find?_range_eq_some]
  exact ⟨hdown, List.mem_range.2 hk, fun j hj => by simp [State.keyDown, hlower j hj]⟩

/-- Settles O30: the search for a key finds none, or the lowest one. -/
theorem keyWaitTakesTheLowestKey : Obligations.KeyWaitTakesTheLowestKey := by
  unfold Obligations.KeyWaitTakesTheLowestKey
  intro x s
  have hwait (hkey : s.key = 0) : exec (.ldVxK x) s = .next s :=
    exec_ldVxK_of_none x ((lowestKey_eq_none_iff s).2 hkey)
  refine ⟨toNat_packNibbles_familyF 0x0 0xA x, hwait, fun hkey hready hat hevents hclean => ?_,
    fun k hk hdown hlower => ?_⟩
  · exact step_of_clean hready hat hevents (hwait hkey) hclean
  · exact writesReg_of_exec (exec_ldVxK_of_some x (lowestKey_eq_some hk hdown hlower))

/-! ### States by their parts -/

theorem frame_ext {f g : Frame} (h : ∀ (x : Fin 64) (y : Fin 32), pixelAt f x y = pixelAt g x y) : f = g := by
  refine Vector.ext fun y hy => BitVec.eq_of_getLsbD_eq fun x hx => ?_
  have hpixel := h ⟨x, hx⟩ ⟨y, hy⟩
  simpa only [pixelAt, Nat.mod_eq_of_lt hx, Nat.mod_eq_of_lt hy] using hpixel

/-- Settles O56: every field is a part, or is made of parts. -/
theorem partsDetermineTheState : Obligations.PartsDetermineTheState := by
  unfold Obligations.PartsDetermineTheState
  intro s t hs ht h
  have hcfg : t.cfg = s.cfg := h .cfg
  have hv : t.v = s.v := Vector.ext fun r hr => h (.reg ⟨r, hr⟩)
  have hstack : t.stack = s.stack := List.ext_getElem? fun k => h (.stackEntry k)
  have hmem : t.mem = s.mem := by
    rw [hcfg] at ht
    exact Memory.eq_of_read_eq ht hs fun a => by simpa [Part.same, State.byteAt, hcfg] using h (.byte a)
  have hfb : t.fb = s.fb := frame_ext fun x y => h (.pixel x y)
  cases s
  cases t
  congr 1
  exacts [hv.symm, (h .pc).symm, (h .index).symm, (h .sp).symm, hstack.symm, (h .dt).symm, (h .st).symm, hmem.symm,
    hfb.symm, (h .dirty).symm, (h .runState).symm, (h .stopReq).symm, (h .runDone).symm, (h .fault).symm,
    (h .key).symm, (h .rnd).symm, hcfg.symm, (h .events).symm, (h .trace).symm]

end Sys2Proof.Machine
